-- ==== Sys2Proof/Word.lean ====
section
/-! DEFINITION. The word types of the block (spec/00_scope.md R8, R9): unsigned bytes, words and the 64-bit counter.
All arithmetic on them is BitVec arithmetic, which wraps (R10). -/

namespace Sys2Proof

/-- An unsigned 8-bit value (R9). -/
abbrev Byte := BitVec 8

/-- An unsigned 32-bit value (R9). -/
abbrev Word := BitVec 32

/-- The value of the 64-bit total-bit counter and of the command length field (R8, R20, R55). -/
abbrev Count := BitVec 64

/-- The digest accumulator: eight words, word 0 first (R8, R17). -/
abbrev Digest := Vector Word 8

/-- One 64-byte block, the unit the transform consumes (R8, R14). -/
abbrev Block := Vector Byte 64

end Sys2Proof
end

