-- ==== Sys2Proof/Machine/Bytes.lean ====
section
/-! DEFINITION. Conversions between bytes and wider values. The block is big-endian everywhere
(spec/00_scope.md R11, spec/20_memory.md R37, R38, R39). -/

namespace Sys2Proof.Machine

/-- The word built from four bytes, most significant first (R11). -/
def be32 (b0 b1 b2 b3 : Byte) : Word :=
  (b0.setWidth 32 <<< 24) ||| (b1.setWidth 32 <<< 16) ||| (b2.setWidth 32 <<< 8) ||| b3.setWidth 32

/-- The unsigned 64-bit value of a list of bytes, most significant first (R56: be64 of the eight length bytes). -/
def be64 (bs : List Byte) : Count :=
  bs.foldl (fun v b => (v <<< 8) ||| b.setWidth 64) 0

/-- The eight bytes of a 64-bit value: byte k is v[63-8k : 56-8k] (R11). -/
def be64bytes (v : Count) : List Byte :=
  (List.range 8).map fun k => v.extractLsb' (56 - 8 * k) 8

/-- Bytes joined big-endian into a value of eight bits per byte (the loop of MemRead, R38). -/
def joinBytes {n : Nat} (bs : List Byte) : BitVec (8 * n) :=
  bs.foldl (fun v b => (v <<< 8) ||| b.setWidth (8 * n)) 0

/-- The bytes of a value, most significant first (the loop of MemWrite, R39): byte k is v[8(n-k)-1 : 8(n-k)-8]. -/
def splitBytes {n : Nat} (v : BitVec (8 * n)) : List Byte :=
  (List.range n).map fun k => v.extractLsb' (8 * (n - k) - 8) 8

/-- n bytes of 0x00 (R11). -/
def zeros (n : Nat) : List Byte := List.replicate n 0x00#8

/-- n copies of one byte (R11: repeat(b, n)). -/
def repeatByte (b : Byte) (n : Nat) : List Byte := List.replicate n b

end Sys2Proof.Machine
end

