-- ==== Sys2Proof/Machine/Operands.lean ====
section
/-! DEFINITION. Every operand form of the encoding: format A has no operand (spec/30_encoding.md R54), format B a length and a
payload (R55, R56). Both read the bytes of the stream from the command pointer on. -/

namespace Sys2Proof.Machine

/-- The number of bytes of a format-B command before its payload: the opcode and the eight length bytes (R55). -/
def headerBytes : Nat := 9

/-- N, the unsigned value of bytes 1..8, most significant first; neither scaled nor sign-extended (R56). -/
def operandLength (s : List Byte) : Nat := (be64 ((s.drop 1).take 8)).toNat

/-- data, the N bytes from byte 9 on, in message order (R55, R56). -/
def operandData (s : List Byte) : List Byte := (s.drop headerBytes).take (operandLength s)

end Sys2Proof.Machine
end

