-- ==== Sys2Proof/Config.lean ====
section
/-! DEFINITION. The fixed parameters of the block that the model's text names (spec/00_scope.md R8).
The spec leaves no parameter to the model as an argument and no result of a command open, so this file holds no free value. -/

namespace Sys2Proof.Config

/-- The number of bytes of the pending buffer: offsets 0..63 exist, no other (R8, R35). -/
abbrev bufferBytes : Nat := 64

/-- Payload lengths are below this: the length field is 64 bits wide and the largest legal N is 2^64 - 1 (R8, R56). -/
abbrev payloadLimit : Nat := 2 ^ 64

/-- The spec's own number for the refusal of an illegal opcode (R106, decision D6). -/
abbrev illegalOpcodeCode : Nat := 1

end Sys2Proof.Config
end

