-- ==== Sys2Proof/Syntax.lean ====
section
/-! DEFINITION. The host commands, one constructor per row of spec/opcode_table.json (spec/30_encoding.md R57).
INIT and FINALIZE are format A and have no operand (R54); UPDATE and HASH are format B and carry a payload (R55). -/

namespace Sys2Proof

/-- A host command (R57). The length field of format B is not an operand of its own: it is the payload's length (R56). -/
inductive Instr where
  | init
  | update (data : List Byte)
  | finalize
  | hash (data : List Byte)
  deriving DecidableEq, Repr

/-- The two formats of the command stream (R53). -/
inductive Format where
  | A
  | B
  deriving DecidableEq, Repr

/-- The payload a command carries; a command of format A carries none (R54, R55). -/
def Instr.payload : Instr → List Byte
  | .init => []
  | .update data => data
  | .finalize => []
  | .hash data => data

/-- The format of each command (R57). -/
def Instr.format : Instr → Format
  | .init => .A
  | .update _ => .B
  | .finalize => .A
  | .hash _ => .B

end Sys2Proof
end

