-- ==== Sys2Proof/WellFormed.lean ====
section
/-! DEFINITION. Which commands have an encoding: a payload's length must fit the 64-bit length field
(spec/30_encoding.md R56; spec/40_commands.md R68 and R75: 0 <= N <= 2^64 - 1). -/

namespace Sys2Proof

/-- The command's payload fits the length field (R56). A command of format A has no payload, so it passes. -/
abbrev Instr.WellFormed (i : Instr) : Prop := i.payload.length < Config.payloadLimit

end Sys2Proof
end

