-- ==== Sys2Proof/Decode.lean ====
section
/-! DEFINITION. The decoder of spec/30_encoding.md R60, total on any bytes, and the encoder of R53 to R57 after it;
then the host's view of one table row as a number (decodeTableWord). -/

namespace Sys2Proof

open Sys2Proof.Machine

/-- The decoder's answer (R60). `done` is the spec's End, `cmd i n` its Cmd with the command and its length in bytes. -/
inductive Verdict where
  | done
  | cmd (i : Instr) (n : Nat)
  | incomplete
  | illegal (op : Byte)
  deriving DecidableEq, Repr

/-- The opcode byte of each command (R57). -/
def Instr.opcode : Instr → Byte
  | .init => 0x01
  | .update _ => 0x02
  | .finalize => 0x03
  | .hash _ => 0x04

/-- A format-B command: it is incomplete until the length field and then the whole payload have arrived (R60). -/
def decodePayload (mk : List Byte → Instr) (s : List Byte) : Verdict :=
  if s.length < headerBytes then .incomplete
  else if s.length < headerBytes + operandLength s then .incomplete
  else .cmd (mk (operandData s)) (headerBytes + operandLength s)

/-- Decode the bytes of the stream from the command pointer on (R60, R110). Every opcode byte outside the map of R57 is
illegal, whatever follows it (R58). -/
def decode : List Byte → Verdict
  | [] => .done
  | op :: rest =>
    if op = 0x01#8 then .cmd .init 1
    else if op = 0x03#8 then .cmd .finalize 1
    else if op = 0x02#8 then decodePayload .update (op :: rest)
    else if op = 0x04#8 then decodePayload .hash (op :: rest)
    else .illegal op

/-- The bytes of a command: the opcode, and for format B the big-endian payload length and the payload (R54, R55). DESIGN CHOICE: for
a command that is not well formed, a payload of 2^64 bytes or more, the length field is written modulo 2^64; no such command has an
encoding in the spec (R56, notes/assumptions/16.md). -/
def encode : Instr → List Byte
  | .init => [Instr.opcode .init]
  | .update data => Instr.opcode (.update data) :: (be64bytes (BitVec.ofNat 64 data.length) ++ data)
  | .finalize => [Instr.opcode .finalize]
  | .hash data => Instr.opcode (.hash data) :: (be64bytes (BitVec.ofNat 64 data.length) ++ data)

/-- The length of a command in bytes: 1 for format A, 9 + N for format B (R59). -/
def commandLength (i : Instr) : Nat :=
  match i.format with
  | .A => 1
  | .B => headerBytes + i.payload.length

/-- The bytes of an instruction given as a number numbered as the opcode table numbers it: byte k is bits 8k+7 : 8k. -/
def tableBytes (nbits w : Nat) : List Byte :=
  (List.range (nbits / 8)).map fun k => BitVec.ofNat 8 (w >>> (8 * k))

/-- The same bytes with zero bytes after them up to the instruction's whole length: up to a header of zeros, and then up to the
payload its length field asks for. -/
def tableStream (nbits w : Nat) : List Byte :=
  let given := tableBytes nbits w
  let header := given ++ zeros (headerBytes - given.length)
  header ++ zeros (headerBytes + operandLength header - header.length)

/-- The instruction the decoder reads from an instruction whose bits are w. -/
def decodeTableWord (nbits w : Nat) : Option Instr :=
  match decode (tableStream nbits w) with
  | .cmd i _ => some i
  | _ => none

end Sys2Proof
end

