-- ==== Sys2Proof/Machine/Memory.lean ====
section
/-! DEFINITION. The pending buffer as memory: the block's only address map, offsets 0..63
(spec/20_memory.md R35, R44). A list of (offset, byte) cells in one canonical form. An offset that is not listed
has no value: the spec gives the bytes at and above the fill level none (spec/10_state.md R18; D9: "A model may store
only buf[0..fill)"; notes/assumptions/1.md). -/

namespace Sys2Proof.Machine

/-- The stored bytes of the pending buffer, by offset. -/
abbrev Memory := List Host.Cell

/-- The canonical form: offsets strictly rise and lie in the buffer. An unlisted offset has no value, so no listed cell
equals what an unlisted offset reads as. -/
abbrev Memory.wf (m : Memory) : Prop :=
  m.Pairwise (fun c d => c.1 < d.1) ∧ ∀ c ∈ m, c.1 < Config.bufferBytes

/-- A buffer in which no byte has a value. -/
def Memory.empty : Memory := []

/-- The byte stored at an offset, or none where nothing has been stored since the last flush or reset. -/
def Memory.readByte : Memory → Nat → Option Byte
  | [], _ => none
  | c :: m, a => if c.1 = a then some c.2 else Memory.readByte m a

/-- Store a byte at an offset, keeping the cells in order. -/
def Memory.writeByte : Memory → Nat → Byte → Memory
  | [], a, b => [(a, b)]
  | c :: m, a, b =>
    if a < c.1 then (a, b) :: c :: m
    else if a = c.1 then (a, b) :: m
    else c :: Memory.writeByte m a b

/-- The stored bytes in offset order. -/
def Memory.bytes (m : Memory) : List Byte := m.map Prod.snd

/-- The buffer that holds a list of bytes at consecutive offsets from k on. -/
def Memory.ofBytesFrom : Nat → List Byte → Memory
  | _, [] => []
  | k, b :: bs => (k, b) :: Memory.ofBytesFrom (k + 1) bs

/-- The buffer that holds a list of bytes at offsets 0, 1, 2, ... -/
def Memory.ofBytes (bs : List Byte) : Memory := Memory.ofBytesFrom 0 bs

end Sys2Proof.Machine
end

