-- ==== Sys2Proof/Machine/State.lean ====
section
/-! DEFINITION. The state of one block instance (spec/10_state.md R15, R21, R22, R29), the reasons a step can stop, and the
state after power-on reset (spec/70_reset_and_hazards.md R120, R122). -/

namespace Sys2Proof.Machine

/-- The phase (R23). FINALIZING exists only inside a FINALIZE; it is never the phase between commands (R77). -/
inductive Phase where
  | fresh
  | accumulating
  | finalizing
  deriving DecidableEq, Repr

/-- One hasher context: the record of R15. -/
structure Hasher where
  /-- Digest accumulator, eight words (R17). -/
  H : Digest
  /-- Pending buffer: the bytes at offsets below fill (R18, D9). -/
  buf : Memory
  /-- Fill level: the count of valid bytes in buf, 0..63 between commands (R19). -/
  fill : Nat
  /-- Total bit length: bits consumed since the last reset, modulo 2^64 (R20). -/
  bitlen : Count
  /-- Phase; no command's effect depends on it (R23). -/
  phase : Phase
  deriving DecidableEq, Repr

/-- What a refusal records: the opcode byte and the command pointer (R107). -/
structure IllegalOpcode where
  op : Byte
  cp : Nat
  deriving DecidableEq, Repr

/-- The code of a recorded refusal: 1 (R106). -/
def IllegalOpcode.code (_ : IllegalOpcode) : Nat := Config.illegalOpcodeCode

/-- The whole machine: the hasher, the two streams and the bookkeeping of the command step. -/
structure State where
  /-- The instance's hasher context (R15). -/
  hasher : Hasher
  /-- The command stream the host has supplied so far, from offset 0 (R33); an input, never written by the block. -/
  stream : List Byte
  /-- Command pointer: the offset in the stream of the next command (R21). -/
  cp : Nat
  /-- Response stream: every byte emitted so far, in order (R22, R34). -/
  resp : List Byte
  /-- Refusal mark (R29). -/
  refused : Bool
  /-- The opcode byte and command pointer a refusal recorded (R107). -/
  recorded : Option IllegalOpcode
  deriving DecidableEq, Repr

/-- Why a step stops without a next state. In every one of these the state is what it was before the step. -/
inductive Fault where
  /-- Raised by step at the End verdict: the stream holds no further command and the block is idle (R66, R119, R124).
  Safe: nothing is claimed of what an idle block does next. -/
  | idle
  /-- Raised by step at the Incomplete verdict: the stream ended inside a command and the block holds, stuck (R61, R106).
  Safe: nothing is claimed of a run that stops here. -/
  | held
  /-- Raised by the buffer accesses: bytes outside offsets 0..63, which do not exist (R35, R38, R39).
  Safe: no state between commands reaches it. -/
  | bufferOffsetOutOfRange (addr n : Nat)
  /-- Raised by the buffer reads: a byte that nothing has written since the last flush or reset has no value (R18, R35).
  Safe: no state between commands reaches it. -/
  | bufferByteUnwritten (offset : Nat)
  deriving DecidableEq, Repr

/-- Why a step gives no meaning to what the stream holds. -/
inductive Refusal where
  /-- Raised by an arm of exec whose command has no meaning in the model; no arm does. Safe: nothing is claimed. -/
  | notModelled (mnemonic : String)
  /-- Raised by step once the refusal mark is set: no later byte is decoded and the block has no further step (R107).
  Safe: the spec stops here too. It carries what the refusal recorded. -/
  | stopped (record : Option IllegalOpcode)
  deriving DecidableEq, Repr

/-- The reset values of R30: H = IV, fill = 0, bitlen = 0, phase FRESH, and no byte of buf has a value. -/
def Hasher.reset : Hasher :=
  { H := IV, buf := Memory.empty, fill := 0, bitlen := 0, phase := .fresh }

/-- The state right after power-on (R120, R122), before the host has supplied any command. -/
def State.reset : State :=
  { hasher := Hasher.reset, stream := [], cp := 0, resp := [], refused := false, recorded := none }

end Sys2Proof.Machine
end

