-- ==== Sys2Proof/Machine/Flags.lean ====
section
/-! DEFINITION. Status. The block has no status flag and no condition code, and no arithmetic sets one (spec/10_state.md R24).
Its only status is the phase (R23), which no command's effect depends on; these are its transitions (spec/40_commands.md R77). -/

namespace Sys2Proof.Machine

/-- Any update, of any length, moves the phase to ACCUMULATING (R23, R68, D14). -/
def Hasher.beginUpdate (h : Hasher) : Hasher := { h with phase := .accumulating }

/-- FINALIZE starts in the transient phase FINALIZING (R73). -/
def Hasher.beginFinalize (h : Hasher) : Hasher := { h with phase := .finalizing }

/-- The table of R77: the phase between commands after each command. HASH leaves the phase as it is (D12). -/
def Phase.after : Phase → Instr → Phase
  | _, .init => .fresh
  | _, .update _ => .accumulating
  | _, .finalize => .fresh
  | p, .hash _ => p

end Sys2Proof.Machine
end

