-- ==== Sys2Proof/Machine/Ops.lean ====
section
/-! DEFINITION. The named operations over the pending buffer and over the machine (spec/00_scope.md R12, spec/20_memory.md R38 and
R39, spec/60_exceptions.md R107). Taking a refusal is the one shared operation raiseRefuse; the block has no return from it, since
a refused run does not resume (R112). -/

namespace Sys2Proof.Machine

/-- The n bytes of the buffer from an offset on, in offset order, with no check of the range. -/
def readBytesFrom (m : Memory) (addr : Nat) : (n : Nat) → Except Fault (Vector Byte n)
  | 0 => .ok #v[]
  | n + 1 =>
    match readBytesFrom m addr n with
    | .error f => .error f
    | .ok v =>
      match m.readByte (addr + n) with
      | some b => .ok (v.push b)
      | none => .error (.bufferByteUnwritten (addr + n))

/-- The n bytes of the buffer at an offset; only offsets 0..63 exist (R38). Irreducible, so that no proof reads a symbolic buffer byte
by byte by accident; the kernel still evaluates it, and `unfold readBytes` opens it. -/
@[irreducible] def readBytes (m : Memory) (addr n : Nat) : Except Fault (Vector Byte n) :=
  if addr + n ≤ Config.bufferBytes then readBytesFrom m addr n
  else .error (.bufferOffsetOutOfRange addr n)

/-- MemRead(addr, n): the bytes joined big-endian (R38). -/
def memRead (m : Memory) (addr n : Nat) : Except Fault (BitVec (8 * n)) :=
  match readBytes m addr n with
  | .ok v => .ok (joinBytes v.toList)
  | .error f => .error f

/-- Store bytes at consecutive offsets, the first at the lowest, with no check of the range. -/
def writeBytesFrom (m : Memory) (addr : Nat) : List Byte → Memory
  | [] => m
  | b :: bs => writeBytesFrom (m.writeByte addr b) (addr + 1) bs

/-- Store bytes at consecutive offsets; only offsets 0..63 exist (R39). -/
def writeBytes (m : Memory) (addr : Nat) (bs : List Byte) : Except Fault Memory :=
  if addr + bs.length ≤ Config.bufferBytes then .ok (writeBytesFrom m addr bs)
  else .error (.bufferOffsetOutOfRange addr bs.length)

/-- MemWrite(addr, n, v): the value's bytes, most significant first (R39). -/
def memWrite (m : Memory) (addr n : Nat) (v : BitVec (8 * n)) : Except Fault Memory :=
  writeBytes m addr (splitBytes v)

/-- Append bytes to the response stream (R12, R22). -/
def emit (out : List Byte) (s : State) : State := { s with resp := s.resp ++ out }

/-- Reset(s) on the instance: it touches neither the command pointer, nor the streams, nor the refusal mark (R30). -/
def resetInstance (s : State) : State := { s with hasher := Hasher.reset }

/-- raise Refuse(IllegalOpcode(op, cp)): set the mark, record the opcode byte and the command pointer, and leave everything else
as the last complete command left it (R107, R111). -/
def raiseRefuse (op : Byte) (s : State) : State :=
  { s with refused := true, recorded := some ⟨op, s.cp⟩ }

/-- After a command executes, the command pointer moves past it (R59, R66); a command that stops moves nothing. -/
def advance (n : Nat) : Host.Outcome State Fault Refusal → Host.Outcome State Fault Refusal
  | .next s => .next { s with cp := s.cp + n }
  | .fault f => .fault f
  | .refused r => .refused r

/-- The bytes of the command stream that have not been consumed (R60: stream[cp ..]). -/
def remaining (s : State) : List Byte := s.stream.drop s.cp

/-- HOST INPUT, not a step: the host supplies more bytes of the command stream (R33, R61). -/
def hostAppend (more : List Byte) (s : State) : State := { s with stream := s.stream ++ more }

/-- HOST INPUT, not a step: power-on starts a new run on a command stream (R119, R120). Nothing of the earlier run survives. -/
def powerOn (stream : List Byte) : State := { State.reset with stream := stream }

end Sys2Proof.Machine
end

