-- ==== Sys2Proof/Machine/Padding.lean ====
section
/-! DEFINITION. The Merkle-Damgård padding engine (spec/41_padding_serializer.md R79, R80, R81; spec/90_conflicts.md C2: the
congruence governs). -/

namespace Sys2Proof.Machine

/-- The padding length for a fill level L in 0..63 (R79). -/
def padLen (L : Nat) : Nat := if L < 56 then 56 - L else 120 - L

/-- The padding bytes: 0x80, then zero bytes (R80). -/
def pad (L : Nat) : List Byte := 0x80#8 :: zeros (padLen L - 1)

/-- The length field: the bit count before padding, as eight big-endian bytes, exactly as it stands (R81). -/
def lengthField (len0 : Count) : List Byte := be64bytes len0

end Sys2Proof.Machine
end

