-- ==== Sys2Proof/Machine/Serializer.lean ====
section
/-! DEFINITION. The digest serializer (spec/41_padding_serializer.md R86, R87, R88). -/

namespace Sys2Proof.Machine

/-- The ASCII code of a hexadecimal digit, lowercase only (R87). -/
def hexChar (v : BitVec 4) : Byte :=
  if v.toNat < 10 then BitVec.ofNat 8 (0x30 + v.toNat) else BitVec.ofNat 8 (0x61 + (v.toNat - 10))

/-- The eight digits of a word, most significant first, leading zeros included (R86). -/
def serializeWord (w : Word) : List Byte :=
  [7, 6, 5, 4, 3, 2, 1, 0].map fun d => hexChar (w.extractLsb' (4 * d) 4)

/-- Serialize(H): the eight words in word order, 64 bytes in all (R86). -/
def serialize (H : Digest) : List Byte := H.toList.flatMap serializeWord

/-- The codes a response is made of: 0..9 and a..f (R87, R88). -/
def isHexCode (b : Byte) : Bool :=
  (0x30 ≤ b.toNat && b.toNat ≤ 0x39) || (0x61 ≤ b.toNat && b.toNat ≤ 0x66)

end Sys2Proof.Machine
end

