-- ==== Sys2Proof/Machine/Transform.lean ====
section
/-! DEFINITION. The block transform: the message-schedule expander and the compressor (spec/42_transform.md R89 to R101). A pure
function of a digest and a block; additions wrap modulo 2^32 and nothing faults (R90). -/

namespace Sys2Proof.Machine

/-- 32-bit right rotation, for 0 < n < 32 (R91). -/
def rotr (x : Word) (n : Nat) : Word := (x >>> n) ||| (x <<< (32 - n))

/-- σ0 (R92). -/
def smallSigma0 (x : Word) : Word := rotr x 7 ^^^ rotr x 18 ^^^ (x >>> 3)

/-- σ1 (R93). -/
def smallSigma1 (x : Word) : Word := rotr x 17 ^^^ rotr x 19 ^^^ (x >>> 10)

/-- Σ0 (R94). -/
def bigSigma0 (a : Word) : Word := rotr a 2 ^^^ rotr a 13 ^^^ rotr a 22

/-- Σ1 (R95). -/
def bigSigma1 (e : Word) : Word := rotr e 6 ^^^ rotr e 11 ^^^ rotr e 25

/-- Ch (R96). -/
def ch (e f g : Word) : Word := (e &&& f) ^^^ (~~~e &&& g)

/-- Maj (R97). -/
def maj (a b c : Word) : Word := (a &&& b) ^^^ (a &&& c) ^^^ (b &&& c)

/-- The sixteen big-endian words of a block: W[t] for t = 0..15 (R98). -/
def blockWords (B : Block) : Vector Word 16 :=
  Vector.ofFn fun t : Fin 16 => be32 B[4 * t.val] B[4 * t.val + 1] B[4 * t.val + 2] B[4 * t.val + 3]

/-- The first 16 + k words of the schedule. Word t = 16 + k is W[t-16] + σ0(W[t-15]) + W[t-7] + σ1(W[t-2]) (R98). -/
def scheduleWords (B : Block) : (k : Nat) → Vector Word (16 + k)
  | 0 => blockWords B
  | k + 1 =>
    let W := scheduleWords B k
    W.push (W[k] + smallSigma0 W[k + 1] + W[k + 9] + smallSigma1 W[k + 14])

/-- Expand(B): the 64-word message schedule (R98). -/
def expand (B : Block) : Vector Word 64 := scheduleWords B 48

/-- The eight working variables (R26, R99). They exist only inside one transform. -/
structure WorkVars where
  (a b c d e f g h : Word)
  deriving DecidableEq, Repr

/-- The working variables at the start: a = H[0] ... h = H[7] (R99). -/
def WorkVars.ofDigest (H : Digest) : WorkVars := ⟨H[0], H[1], H[2], H[3], H[4], H[5], H[6], H[7]⟩

/-- The round temporary T1, from the variables as they stood at the start of the round (R100). -/
def roundT1 (k w : Word) (v : WorkVars) : Word := v.h + bigSigma1 v.e + ch v.e v.f v.g + k + w

/-- The round temporary T2 (R100). -/
def roundT2 (v : WorkVars) : Word := bigSigma0 v.a + maj v.a v.b v.c

/-- One compression round with round constant k and schedule word w; the eight assignments are simultaneous (R100). -/
def compressionRound (k w : Word) (v : WorkVars) : WorkVars :=
  ⟨roundT1 k w v + roundT2 v, v.a, v.b, v.c, v.d + roundT1 k w v, v.e, v.f, v.g⟩

/-- The working variables after rounds 0 .. n-1 (the loop of R99). -/
def compressionRounds (W : Vector Word 64) : (n : Nat) → n ≤ 64 → WorkVars → WorkVars
  | 0, _, v => v
  | n + 1, hn, v => compressionRound K[n] W[n] (compressionRounds W n (Nat.le_of_succ_le hn) v)

/-- DigestAdd: each digest word plus the corresponding working variable, modulo 2^32 (R101). -/
def digestAdd (H : Digest) (v : WorkVars) : Digest :=
  #v[H[0] + v.a, H[1] + v.b, H[2] + v.c, H[3] + v.d, H[4] + v.e, H[5] + v.f, H[6] + v.g, H[7] + v.h]

/-- Compress(H, B): the schedule, 64 rounds, the digest add (R99). Irreducible, so that no proof about the sequencer computes a
transform by accident; the kernel still evaluates it, and `unfold compress` opens it. -/
@[irreducible] def compress (H : Digest) (B : Block) : Digest :=
  digestAdd H (compressionRounds (expand B) 64 (Nat.le_refl 64) (WorkVars.ofDigest H))

end Sys2Proof.Machine
end

