-- ==== Sys2Proof/Machine/Sequencer.lean ====
section
/-! DEFINITION. The hasher sequencer: the update path and the finalizer (spec/40_commands.md R68 to R70 and R73,
spec/41_padding_serializer.md R82). They work on one hasher context, the instance's own or the private one of HASH. -/

namespace Sys2Proof.Machine

/-- The flush of a full buffer: H <- Compress(H, MemRead(0, 64)); fill <- 0 (R69). The flushed bytes keep no value (D9). -/
def flush (h : Hasher) : Except Fault Hasher :=
  match readBytes h.buf 0 64 with
  | .ok B => .ok { h with H := compress h.H B, buf := Memory.empty, fill := 0 }
  | .error f => .error f

/-- AbsorbByte: store the byte at the fill level, and flush when the buffer holds 64 bytes (R70). -/
def absorbByte (h : Hasher) (b : Byte) : Except Fault Hasher :=
  match memWrite h.buf h.fill 1 b with
  | .ok buf =>
    if h.fill + 1 = 64 then flush { h with buf := buf, fill := h.fill + 1 }
    else .ok { h with buf := buf, fill := h.fill + 1 }
  | .error f => .error f

/-- Absorb, one byte at a time (R70: a model may define Absorb so). -/
def absorb : Hasher → List Byte → Except Fault Hasher
  | h, [] => .ok h
  | h, b :: bs =>
    match absorbByte h b with
    | .ok h' => absorb h' bs
    | .error f => .error f

/-- One turn of the copy and flush loop of R69: copy a chunk that exactly fills the remaining capacity, or all that is left, and
flush when the buffer holds 64 bytes. It answers the context and the bytes still to copy. -/
def absorbChunk (h : Hasher) (data : List Byte) : Except Fault (Hasher × List Byte) :=
  let c := min (64 - h.fill) data.length
  match writeBytes h.buf h.fill (data.take c) with
  | .error f => .error f
  | .ok buf =>
    if h.fill + c = 64 then
      match flush { h with buf := buf, fill := h.fill + c } with
      | .error f => .error f
      | .ok h' => .ok (h', data.drop c)
    else .ok ({ h with buf := buf, fill := h.fill + c }, data.drop c)

/-- The copy and flush loop of R69 as it is written there. The first argument bounds the number of turns; a chunk is at least one byte
when fill < 64, so the payload's length suffices. -/
def absorbChunks : Nat → Hasher → List Byte → Except Fault Hasher
  | 0, h, _ => .ok h
  | turns + 1, h, data =>
    if data = [] then .ok h
    else
      match absorbChunk h data with
      | .ok (h', rest) => absorbChunks turns h' rest
      | .error f => .error f

/-- Count the payload's bits, modulo 2^64 (R20, R68, D8). -/
def countBits (h : Hasher) (n : Nat) : Hasher := { h with bitlen := h.bitlen + BitVec.ofNat 64 (8 * n) }

/-- UpdatePath: count, set the phase, absorb (R68). -/
def updatePath (h : Hasher) (data : List Byte) : Except Fault Hasher :=
  absorb (countBits h data.length).beginUpdate data

/-- Pad and count: the bit count is captured first, then the padding and the length field go through the update path (R73, R82). -/
def padPath (h : Hasher) : Except Fault Hasher :=
  match updatePath h.beginFinalize (pad h.fill) with
  | .ok h' => updatePath h' (lengthField h.bitlen)
  | .error f => .error f

/-- Finalize: pad, serialize the digest and reset. It answers the 64 response bytes and the context after it (R73). -/
def finalizeHasher (h : Hasher) : Except Fault (List Byte × Hasher) :=
  match padPath h with
  | .ok h' => .ok (serialize h'.H, Hasher.reset)
  | .error f => .error f

/-- The one-shot form: a fresh context, one update, then finalize; only the output is kept (R75). -/
def hashMessage (data : List Byte) : Except Fault (List Byte) :=
  match updatePath Hasher.reset data with
  | .ok t =>
    match finalizeHasher t with
    | .ok (out, _) => .ok out
    | .error f => .error f
  | .error f => .error f

end Sys2Proof.Machine
end

