-- ==== Sys2Proof/Machine/Commands.lean ====
section
/-! DEFINITION. The meanings of the four host commands (spec/40_commands.md R67, R68, R73, R75). Each acts on the state alone; the
step that calls it moves the command pointer (R66). None can fail in a state between commands (R78). -/

namespace Sys2Proof.Machine

/-- INIT: Reset(s); it emits nothing (R67). -/
def execInit (s : State) : Host.Outcome State Fault Refusal := .next (resetInstance s)

/-- UPDATE: the update path on the instance; it emits nothing (R68). -/
def execUpdate (data : List Byte) (s : State) : Host.Outcome State Fault Refusal :=
  match updatePath s.hasher data with
  | .ok h => .next { s with hasher := h }
  | .error f => .fault f

/-- FINALIZE: pad, emit the digest of all bytes consumed since the last reset, and reset (R73). -/
def execFinalize (s : State) : Host.Outcome State Fault Refusal :=
  match finalizeHasher s.hasher with
  | .ok (out, h) => .next (emit out { s with hasher := h })
  | .error f => .fault f

/-- HASH: emit the digest of the payload, computed in a private fresh context; the instance is unchanged (R75, D12). -/
def execHash (data : List Byte) (s : State) : Host.Outcome State Fault Refusal :=
  match hashMessage data with
  | .ok out => .next (emit out s)
  | .error f => .fault f

end Sys2Proof.Machine
end

