-- ==== Sys2Proof/Machine/Dispatch.lean ====
section
/-! DEFINITION. Execute(op, data): the command rule named by the opcode (spec/40_commands.md R66, spec/30_encoding.md R57). -/

namespace Sys2Proof.Machine

/-- One arm per command. -/
def exec (i : Instr) (s : State) : Host.Outcome State Fault Refusal :=
  match i with
  | .init => Sys2Proof.Machine.execInit s
  | .update data => Sys2Proof.Machine.execUpdate data s
  | .finalize => Sys2Proof.Machine.execFinalize s
  | .hash data => Sys2Proof.Machine.execHash data s

end Sys2Proof.Machine
end

