-- ==== Sys2Proof/Machine/Step.lean ====
section
/-! DEFINITION. The command step (spec/40_commands.md R66). -/

namespace Sys2Proof.Machine

/-- One step is one whole command: decode at the command pointer, execute, move past it. An illegal opcode takes the refusal
(R107); once the mark is set the block has no further step. At End and at Incomplete there is no step (R61, R66). -/
def step (s : State) : Host.Outcome State Fault Refusal :=
  if s.refused then .refused (.stopped s.recorded)
  else
    match decode (remaining s) with
    | .cmd i n => advance n (exec i s)
    | .done => .fault .idle
    | .incomplete => .fault .held
    | .illegal op => .next (raiseRefuse op s)

/-- The state with one instruction, given as the opcode table numbers its bits, in the command stream at the command pointer: it
stands for the host supplying the stream. A refused block decodes nothing, so the refusal mark is clear in the answer. -/
def State.withFetchWord (s : State) (nbits w : Nat) : State :=
  let before := s.stream.take s.cp
  let bytes := tableStream nbits w
  { s with
    stream := before ++ zeros (s.cp - before.length) ++ bytes ++ s.stream.drop (s.cp + bytes.length)
    refused := false
    recorded := none }

end Sys2Proof.Machine
end

