-- ==== Sys2Proof/Machine/Assembler.lean ====
section
/-! DEFINITION. The textual form of commands and the two pseudo-commands (spec/30_encoding.md R63, R64, D15). It is notation only:
the block never sees it. A line is a list of characters; what the spec's forms do not cover is rejected (notes/assumptions/9.md). -/

namespace Sys2Proof.Machine

/-- The value of a hexadecimal digit, either case. -/
def hexValue (c : Char) : Option Nat :=
  if '0'.toNat ≤ c.toNat ∧ c.toNat ≤ '9'.toNat then some (c.toNat - '0'.toNat)
  else if 'a'.toNat ≤ c.toNat ∧ c.toNat ≤ 'f'.toNat then some (c.toNat - 'a'.toNat + 10)
  else if 'A'.toNat ≤ c.toNat ∧ c.toNat ≤ 'F'.toNat then some (c.toNat - 'A'.toNat + 10)
  else none

/-- The byte a pair of hexadecimal digits spells. -/
def hexByte (a b : Char) : Option Byte :=
  match hexValue a, hexValue b with
  | some x, some y => some (BitVec.ofNat 8 (16 * x + y))
  | _, _ => none

/-- Pairs of hexadecimal digits, one pair per byte; an odd digit is rejected (R63). -/
def hexPairs : List Char → Option (List Byte)
  | [] => some []
  | [_] => none
  | a :: b :: cs =>
    match hexByte a b, hexPairs cs with
    | some v, some bs => some (v :: bs)
    | _, _ => none

/-- The bytes of a string literal after its opening quote, and what follows its closing quote. Characters stand for their ASCII
codes, \xHH for the byte 0xHH and \" for 0x22 (R63). -/
def textLiteral : List Char → Option (List Byte × List Char)
  | [] => none
  | '"' :: rest => some ([], rest)
  | '\\' :: 'x' :: a :: b :: rest =>
    match hexByte a b, textLiteral rest with
    | some v, some (bs, after) => some (v :: bs, after)
    | _, _ => none
  | '\\' :: '"' :: rest =>
    match textLiteral rest with
    | some (bs, after) => some (0x22#8 :: bs, after)
    | none => none
  | '\\' :: _ => none
  | c :: rest =>
    if c.toNat < 128 then
      match textLiteral rest with
      | some (bs, after) => some (BitVec.ofNat 8 c.toNat :: bs, after)
      | none => none
    else none

/-- A payload operand: a string literal or hex: and digit pairs (R63). -/
def payloadOperand : List Char → Option (List Byte)
  | '"' :: rest =>
    match textLiteral rest with
    | some (bs, []) => some bs
    | _ => none
  | 'h' :: 'e' :: 'x' :: ':' :: rest => hexPairs rest
  | _ => none

/-- Digits in a base, most significant first. -/
def digits (base : Nat) (acc : Nat) : List Char → Option Nat
  | [] => some acc
  | c :: cs =>
    match hexValue c with
    | some d => if d < base then digits base (base * acc + d) cs else none
    | none => none

/-- A number: 0x and hexadecimal digits (R9), or decimal digits. -/
def number : List Char → Option Nat
  | [] => none
  | '0' :: 'x' :: d :: ds => digits 16 0 (d :: ds)
  | d :: ds => digits 10 0 (d :: ds)

/-- The fields between commas, with the spaces before each dropped; the first argument is the field being read. -/
def fields (current : List Char) : List Char → List (List Char)
  | [] => [current]
  | c :: cs =>
    if c = ',' then current :: fields [] cs
    else if c = ' ' ∧ current = [] then fields [] cs
    else fields (current ++ [c]) cs

/-- Every field as a number. -/
def numbers : List (List Char) → Option (List Nat)
  | [] => some []
  | f :: fs =>
    match number f, numbers fs with
    | some n, some ns => some (n :: ns)
    | _, _ => none

/-- The pieces of a byte sequence cut at rising offsets, the first piece starting at the offset given first. -/
def pieces (start : Nat) : List Nat → List Byte → Option (List (List Byte))
  | [], bs => some [bs]
  | k :: ks, bs =>
    if start ≤ k ∧ k - start ≤ bs.length then
      match pieces k ks (bs.drop (k - start)) with
      | some ps => some (bs.take (k - start) :: ps)
      | none => none
    else none

/-- REPEAT b, n: one UPDATE of n copies of b (R64). -/
def repeatCommand (b : Byte) (n : Nat) : Instr := .update (repeatByte b n)

/-- UPDATE_SPLIT: consecutive UPDATEs on the pieces (R64). -/
def splitCommands (text : List Byte) (offsets : List Nat) : Option (List Instr) :=
  match pieces 0 offsets text with
  | some ps => some (ps.map Instr.update)
  | none => none

/-- The mnemonic of a line, and its operands after one space. -/
def splitMnemonic : List Char → List Char × Option (List Char)
  | [] => ([], none)
  | c :: cs =>
    if c = ' ' then ([], some cs)
    else ((c :: (splitMnemonic cs).1), (splitMnemonic cs).2)

/-- REPEAT's two operands. DESIGN CHOICE: a count of 2^64 or more, for which no length field exists, is rejected
(notes/assumptions/9.md). -/
def assembleRepeat (operands : List Char) : Option (List Instr) :=
  match numbers (fields [] operands) with
  | some [b, n] => if b < 256 ∧ n < Config.payloadLimit then some [repeatCommand (BitVec.ofNat 8 b) n] else none
  | _ => none

/-- UPDATE_SPLIT's string literal and at least one offset. -/
def assembleSplit : List Char → Option (List Instr)
  | '"' :: rest =>
    match textLiteral rest with
    | some (text, ',' :: offsets) =>
      match numbers (fields [] offsets) with
      | some ks => splitCommands text ks
      | none => none
    | _ => none
  | _ => none

/-- The commands one line spells: a command, or what a pseudo-command expands to (R63, R64). DESIGN CHOICE: the length of a payload
written out in an UPDATE, HASH or UPDATE_SPLIT line is not checked, so one of 2^64 bytes or more is accepted, although no length
field can spell it (R56, notes/assumptions/9.md, notes/assumptions/16.md). -/
def assembleLine (line : List Char) : Option (List Instr) :=
  match splitMnemonic line with
  | (['I', 'N', 'I', 'T'], none) => some [.init]
  | (['F', 'I', 'N', 'A', 'L', 'I', 'Z', 'E'], none) => some [.finalize]
  | (['U', 'P', 'D', 'A', 'T', 'E'], some operand) =>
    match payloadOperand operand with
    | some data => some [.update data]
    | none => none
  | (['H', 'A', 'S', 'H'], some operand) =>
    match payloadOperand operand with
    | some data => some [.hash data]
    | none => none
  | (['R', 'E', 'P', 'E', 'A', 'T'], some operands) => assembleRepeat operands
  | (['U', 'P', 'D', 'A', 'T', 'E', '_', 'S', 'P', 'L', 'I', 'T'], some operands) => assembleSplit operands
  | _ => none

/-- The command stream a list of lines spells, one command a line (R63). -/
def assemble : List (List Char) → Option (List Byte)
  | [] => some []
  | line :: lines =>
    match assembleLine line, assemble lines with
    | some is, some bytes => some (is.flatMap encode ++ bytes)
    | _, _ => none

end Sys2Proof.Machine
end

