-- ==== Sys2Proof/Machine/Cost.lean ====
section
/-! DEFINITION. The operation counts of spec/70_reset_and_hazards.md R128, as a cost measure: the sequencer's functions again, each
answering beside its context how many block transforms it ran. No meaning calls them. -/

namespace Sys2Proof.Machine

/-- The transforms AbsorbByte runs: one when the byte fills the buffer (R69, R70). -/
def flushesOn (h : Hasher) : Nat := if h.fill + 1 = 64 then 1 else 0

/-- Absorb, with the number of transforms it runs. -/
def absorbCounting : Hasher → List Byte → Except Fault (Hasher × Nat)
  | h, [] => .ok (h, 0)
  | h, b :: bs =>
    match absorbByte h b with
    | .error f => .error f
    | .ok h' =>
      match absorbCounting h' bs with
      | .ok (t, n) => .ok (t, flushesOn h + n)
      | .error f => .error f

/-- The update path, with the number of transforms it runs. -/
def updateCounting (h : Hasher) (data : List Byte) : Except Fault (Hasher × Nat) :=
  absorbCounting (countBits h data.length).beginUpdate data

/-- The two appends of the finalizer, with the number of transforms they run. -/
def padCounting (h : Hasher) : Except Fault (Hasher × Nat) :=
  match updateCounting h.beginFinalize (pad h.fill) with
  | .error f => .error f
  | .ok (h', n) =>
    match updateCounting h' (lengthField h.bitlen) with
    | .ok (t, k) => .ok (t, n + k)
    | .error f => .error f

/-- The number of block transforms a command runs in a state (R128). -/
def commandTransforms (i : Instr) (s : State) : Except Fault Nat :=
  match i with
  | .init => .ok 0
  | .update data =>
    match updateCounting s.hasher data with
    | .ok (_, n) => .ok n
    | .error f => .error f
  | .finalize =>
    match padCounting s.hasher with
    | .ok (_, n) => .ok n
    | .error f => .error f
  | .hash data =>
    match updateCounting Hasher.reset data with
    | .error f => .error f
    | .ok (t, n) =>
      match padCounting t with
      | .ok (_, k) => .ok (n + k)
      | .error f => .error f

end Sys2Proof.Machine
end

