-- ==== Sys2Proof/Machine/Instances.lean ====
section
/-! DEFINITION. Several instances side by side (spec/20_memory.md R51, spec/60_exceptions.md R117): copies of the state, each with
its own streams, sharing only the constant tables. Which instance moves next is the caller's. -/

namespace Sys2Proof.Machine

/-- Step instance k. The others keep their states; where k stops, nothing moves. -/
def stepInstance {n : Nat} (k : Fin n) (blocks : Vector State n) : Host.Outcome (Vector State n) Fault Refusal :=
  match step blocks[k.val] with
  | .next t => .next (blocks.set k.val t)
  | .fault f => .fault f
  | .refused r => .refused r

end Sys2Proof.Machine
end

