-- ==== Sys2Proof/Safety.lean ====
section
/-! DEFINITION. The terms claims use: what holds between commands (spec/10_state.md R31), what a finished run is
(spec/70_reset_and_hazards.md R124), and the digest of a message as the standard defines it, with no buffer and no sequencer
(spec/41_padding_serializer.md R85, spec/42_transform.md R99). The machine calls none of this. -/

namespace Sys2Proof.Machine

/-- The k-th 64-byte block of a message, for k below its number of whole blocks. -/
def wholeBlock (m : List Byte) (k : Nat) : Block := Vector.ofFn fun j : Fin 64 => m.getD (64 * k + j.val) 0

/-- The floor(T / 64) complete blocks of a message, in order (R31). -/
def wholeBlocks (m : List Byte) : List Block := (List.range (m.length / 64)).map (wholeBlock m)

/-- A digest followed by Compress over each complete block of a message, in order (R31). -/
def digestOver (H : Digest) (m : List Byte) : Digest := (wholeBlocks m).foldl compress H

/-- The last T mod 64 bytes of a message, which complete no block (R31). -/
def leftover (m : List Byte) : List Byte := m.drop (64 * (m.length / 64))

/-- The message bit count of a message, modulo 2^64 (R20). -/
def bitCount (m : List Byte) : Count := BitVec.ofNat 64 (8 * m.length)

/-- The padded message: the message, the padding, the length field (R85). -/
def paddedMessage (m : List Byte) : List Byte := m ++ pad (m.length % 64) ++ lengthField (bitCount m)

/-- The 64 response bytes of a message: its padded blocks compressed from IV, serialized. -/
def sha256 (m : List Byte) : List Byte := serialize (digestOver IV (paddedMessage m))

/-- The context holds the message m delivered since the last reset (R31), whatever its phase. -/
structure Hasher.Holds (h : Hasher) (m : List Byte) : Prop where
  H : h.H = digestOver IV m
  fill : h.fill = m.length % 64
  buf : h.buf = Memory.ofBytes (leftover m)
  bitlen : h.bitlen = bitCount m

/-- The message a context holds after a command: UPDATE extends it, INIT and FINALIZE discard it, HASH leaves it (R31, R121). -/
def messageAfter (m : List Byte) : Instr → List Byte
  | .init => []
  | .update data => m ++ data
  | .finalize => []
  | .hash _ => m

/-- The buffer and the fill level agree: the stored bytes are those at offsets 0 .. fill-1, and fill is at most 63 (R18, R19). -/
structure Hasher.Buffered (h : Hasher) : Prop where
  fill_lt : h.fill < 64
  offsets : h.buf.map Prod.fst = List.range h.fill

/-- What holds of a context between commands (R19, R23, R25, R31, R77). -/
structure Hasher.Inv (h : Hasher) : Prop where
  buffered : h.Buffered
  wholeBytes : h.bitlen.toNat % 8 = 0
  fillCounts : h.bitlen.toNat / 8 % 64 = h.fill
  phase : h.phase ≠ .finalizing
  fresh : h.phase = .fresh → h = Hasher.reset

/-- What holds of the machine between commands. -/
structure State.Inv (s : State) : Prop where
  hasher : s.hasher.Inv
  /-- The command pointer stays inside the stream (R21). -/
  cp_le : s.cp ≤ s.stream.length
  /-- The responses are whole digests (R34). -/
  resp_length : s.resp.length % 64 = 0
  /-- Every response byte is one of the sixteen codes (R88). -/
  resp_hex : ∀ b ∈ s.resp, isHexCode b = true
  /-- The mark is set exactly when a refusal has been recorded (R107). -/
  mark : s.refused = s.recorded.isSome
  /-- What is recorded is the illegal byte at the command pointer and the command pointer (R107). -/
  record : ∀ r, s.recorded = some r → r.cp = s.cp ∧ decode (remaining s) = .illegal r.op

/-- The run has finished: the whole stream is consumed and no refusal was raised (R124). -/
def Finished (s : State) : Prop := s.refused = false ∧ decode (remaining s) = .done

/-- The block holds inside a command whose bytes have not all arrived (R61). -/
def Held (s : State) : Prop := s.refused = false ∧ decode (remaining s) = .incomplete

/-- The bytes a command emits, given the message its context holds (R34, R62). -/
def responseOf (m : List Byte) : Instr → List Byte
  | .init => []
  | .update _ => []
  | .finalize => sha256 m
  | .hash data => sha256 data

/-- Commands executed one after the other, stopping at the first that stops. -/
def execAll : List Instr → State → Host.Outcome State Fault Refusal
  | [], s => .next s
  | i :: is, s =>
    match exec i s with
    | .next t => execAll is t
    | .fault f => .fault f
    | .refused r => .refused r

/-- A number of steps, stopping at the first that stops. -/
def runSteps : Nat → State → Host.Outcome State Fault Refusal
  | 0, s => .next s
  | k + 1, s =>
    match step s with
    | .next t => runSteps k t
    | .fault f => .fault f
    | .refused r => .refused r

/-- The ASCII codes of a text (R87). -/
def asciiBytes (text : String) : List Byte := text.toList.map fun c => BitVec.ofNat 8 c.toNat

/-- The next state, if there is one. -/
def nextState {σ φ ρ : Type} : Host.Outcome σ φ ρ → Option σ
  | .next s => some s
  | .fault _ => none
  | .refused _ => none

/-- The same state with another phase. -/
def withPhase (p : Phase) (s : State) : State := { s with hasher := { s.hasher with phase := p } }

/-- The sixteen-word window of a sliding schedule expander: words t-16 .. t-1, before word t (R98). -/
def slideWindow (w : Vector Word 16) : Vector Word 16 :=
  #v[w[1], w[2], w[3], w[4], w[5], w[6], w[7], w[8], w[9], w[10], w[11], w[12], w[13], w[14], w[15],
    w[0] + smallSigma0 w[1] + w[9] + smallSigma1 w[14]]

/-- The window after k slides from the block's own words. -/
def windowAfter (B : Block) : Nat → Vector Word 16
  | 0 => blockWords B
  | k + 1 => slideWindow (windowAfter B k)

end Sys2Proof.Machine
end

