-- ==== Sys2Proof/Certificates/Slice0/Obligations.lean ====
section
/-! DEFINITION. The statements for the provers, from the numbered rules of spec/. `Hasher.Buffered` (the buffer and the fill level
agree) is the part of the invariant that UPDATE and FINALIZE need; `PowerOnMeetsTheInvariant` and `StepKeepsTheInvariant` state the
invariant itself. A conclusion `exec i s = .next { s with ... }` gives the whole next state, so it says too what is unchanged. -/

open Sys2Proof Sys2Proof.Machine

/-! Reset -/

/-- After power-on: H = IV, fill = 0, bitlen = 0, phase FRESH, cp = 0, an empty response stream, refused = false, decoding starts at
the first byte of the stream, and the instance is as INIT leaves it (spec/70_reset_and_hazards.md R120, with IV of
spec/42_transform.md R105). -/
def Obligations.PowerOnGivesTheResetState : Prop :=
  ∀ stream : List Byte,
    (powerOn stream).hasher.H =
      #v[0x6a09e667#32, 0xbb67ae85#32, 0x3c6ef372#32, 0xa54ff53a#32, 0x510e527f#32, 0x9b05688c#32, 0x1f83d9ab#32, 0x5be0cd19#32] ∧
    (powerOn stream).hasher.fill = 0 ∧ (powerOn stream).hasher.bitlen = 0 ∧ (powerOn stream).hasher.phase = .fresh ∧
    (powerOn stream).cp = 0 ∧ (powerOn stream).resp = [] ∧ (powerOn stream).refused = false ∧
    remaining (powerOn stream) = stream ∧ State.reset = powerOn [] ∧
    ∀ s : State, exec .init s = .next { s with hasher := (powerOn stream).hasher }

/-- The invariant holds after power-on, on any stream, and so at reset (spec/10_state.md section 6, spec/70_reset_and_hazards.md
section 1). -/
def Obligations.PowerOnMeetsTheInvariant : Prop :=
  State.reset.Inv ∧ ∀ stream : List Byte, (powerOn stream).Inv

/-- The state is reset at power-on, by INIT and at the end of FINALIZE, and nowhere else: UPDATE never leaves the reset state, HASH
and the refusal of an illegal opcode leave the instance as it was (spec/70_reset_and_hazards.md R121). -/
def Obligations.StateIsResetInExactlyThreePlaces : Prop :=
  (∀ stream, (powerOn stream).hasher = Hasher.reset) ∧
  (∀ s, exec .init s = .next { s with hasher := Hasher.reset }) ∧
  (∀ s : State, s.hasher.Buffered → ∃ t, exec .finalize s = .next t ∧ t.hasher = Hasher.reset) ∧
  (∀ s data t, exec (.update data) s = .next t → t.hasher ≠ Hasher.reset) ∧
  (∀ s data, ∃ t, exec (.hash data) s = .next t ∧ t.hasher = s.hasher) ∧
  (∀ s op, (raiseRefuse op s).hasher = s.hasher)

/-- Nothing must be initialised: any command may come first. FINALIZE first emits the empty-message digest; INIT first changes
nothing but the command pointer (spec/70_reset_and_hazards.md section 2). -/
def Obligations.AnyCommandMayComeFirst : Prop :=
  (∀ (i : Instr) (rest : List Byte), i.WellFormed → ∃ t, step (powerOn (encode i ++ rest)) = .next t ∧ t.cp = commandLength i) ∧
  (∀ rest : List Byte, ∃ t, step (powerOn (encode .finalize ++ rest)) = .next t ∧
    t.resp = asciiBytes "e3b0c44298fc1c149afbf4c8996fb92427ae41e4649b934ca495991b7852b855") ∧
  (∀ rest : List Byte, step (powerOn (encode .init ++ rest)) = .next { powerOn (encode .init ++ rest) with cp := 1 })

/-! Encoding -/

/-- The decoder's verdict on every byte sequence (spec/30_encoding.md R60). -/
def Obligations.DecoderGivesEachVerdict : Prop :=
  ∀ s : List Byte,
    (decode s = .done ↔ s = []) ∧
    (∀ op, decode s = .illegal op ↔ ∃ rest, s = op :: rest ∧ op ≠ 0x01#8 ∧ op ≠ 0x02#8 ∧ op ≠ 0x03#8 ∧ op ≠ 0x04#8) ∧
    (decode s = .incomplete ↔ ∃ op rest, s = op :: rest ∧ (op = 0x02#8 ∨ op = 0x04#8) ∧
      (s.length < 9 ∨ s.length < 9 + (be64 ((s.drop 1).take 8)).toNat)) ∧
    (∀ i n, decode s = .cmd i n ↔
      (∃ rest, s = 0x01#8 :: rest ∧ i = .init ∧ n = 1) ∨
      (∃ rest, s = 0x03#8 :: rest ∧ i = .finalize ∧ n = 1) ∨
      (∃ rest, s = 0x02#8 :: rest ∧ 9 ≤ s.length ∧ n = 9 + (be64 ((s.drop 1).take 8)).toNat ∧ n ≤ s.length ∧
        i = .update ((s.drop 9).take (be64 ((s.drop 1).take 8)).toNat)) ∨
      (∃ rest, s = 0x04#8 :: rest ∧ 9 ≤ s.length ∧ n = 9 + (be64 ((s.drop 1).take 8)).toNat ∧ n ≤ s.length ∧
        i = .hash ((s.drop 9).take (be64 ((s.drop 1).take 8)).toNat)))

/-- The eight length bytes are an unsigned number, most significant byte first, and the length field of the padding spells its
64-bit value the same way (spec/00_scope.md section 4, spec/30_encoding.md section 2). -/
def Obligations.LengthBytesAreBigEndian : Prop :=
  (∀ b1 b2 b3 b4 b5 b6 b7 b8 : Byte,
    (be64 [b1, b2, b3, b4, b5, b6, b7, b8]).toNat =
      b1.toNat * 2 ^ 56 + b2.toNat * 2 ^ 48 + b3.toNat * 2 ^ 40 + b4.toNat * 2 ^ 32 +
        b5.toNat * 2 ^ 24 + b6.toNat * 2 ^ 16 + b7.toNat * 2 ^ 8 + b8.toNat) ∧
  (∀ v : Count, be64 (be64bytes v) = v) ∧
  (∀ (v : Count) (k : Nat), k < 8 → (be64bytes v)[k]? = some (BitVec.ofNat 8 (v.toNat / 2 ^ (56 - 8 * k))))

/-- Decoding an encoded well-formed command, whatever follows it in the stream, gives the command back with all its operand bytes and
the length of its format (spec/30_encoding.md sections 2 and 4). -/
def Obligations.DecodeOfEncodeIsTheCommand : Prop :=
  ∀ (i : Instr) (rest : List Byte), i.WellFormed →
    decode (encode i ++ rest) = .cmd i (commandLength i) ∧ (encode i).length = commandLength i

/-- Every byte sequence that decodes to a command starts with that command's encoding: no two encodings mean one command, and the
command is well formed (spec/30_encoding.md sections 2 and 4). -/
def Obligations.DecodedBytesAreTheCommandsEncoding : Prop :=
  ∀ (s : List Byte) (i : Instr) (n : Nat), decode s = .cmd i n →
    i.WellFormed ∧ n = commandLength i ∧ n ≤ s.length ∧ s.take n = encode i

/-- Words written out from the encoding tables decode to the commands they stand for (spec/30_encoding.md sections 2 and 3). -/
def Obligations.WrittenOutWordsDecode : Prop :=
  decode [0x01] = .cmd .init 1 ∧
  decode [0x03, 0x03] = .cmd .finalize 1 ∧
  decode [0x02, 0x00, 0x00, 0x00, 0x00, 0x00, 0x00, 0x00, 0x03, 0x61, 0x62, 0x63, 0x03] = .cmd (.update [0x61, 0x62, 0x63]) 12 ∧
  decode [0x02, 0x00, 0x00, 0x00, 0x00, 0x00, 0x00, 0x00, 0x01, 0x03, 0x03] = .cmd (.update [0x03]) 10 ∧
  decode [0x04, 0x00, 0x00, 0x00, 0x00, 0x00, 0x00, 0x00, 0x00] = .cmd (.hash []) 9 ∧
  decode [0x02, 0x00, 0x00, 0x00, 0x00, 0x00, 0x00, 0x00, 0x05, 0x61, 0x62] = .incomplete ∧
  decode [0x02, 0x00, 0x00, 0x00] = .incomplete ∧
  decode [0x05] = .illegal 0x05 ∧ decode [] = .done

/-- Every opcode byte but 0x01..0x04 is illegal, 252 values in all; the block executes nothing for it, changes no state and decodes
nothing after it (spec/30_encoding.md R58). -/
def Obligations.OtherOpcodeBytesAreIllegal : Prop :=
  (∀ (op : Byte) (rest : List Byte), decode (op :: rest) = .illegal op ↔ ¬ (1 ≤ op.toNat ∧ op.toNat ≤ 4)) ∧
  ((List.range 256).filter fun n => decode [BitVec.ofNat 8 n] == .illegal (BitVec.ofNat 8 n)).length = 252 ∧
  (∀ (s : State) (op : Byte) (rest : List Byte), s.refused = false → remaining s = op :: rest → ¬ (1 ≤ op.toNat ∧ op.toNat ≤ 4) →
    ∃ t, step s = .next t ∧ t.hasher = s.hasher ∧ t.resp = s.resp ∧ t.cp = s.cp ∧ t.stream = s.stream ∧
      ∀ u, step t ≠ .next u)

/-- A command, or an illegal opcode, is settled by the bytes that have arrived: more bytes after them do not change the verdict
(spec/30_encoding.md section 4, spec/60_exceptions.md section 3). -/
def Obligations.LaterBytesDoNotChangeAVerdict : Prop :=
  ∀ s more : List Byte,
    (∀ i n, decode s = .cmd i n → decode (s ++ more) = .cmd i n) ∧
    (∀ op, decode s = .illegal op → decode (s ++ more) = .illegal op)

/-! The command step -/

/-- The step: a decoded command is executed and the command pointer moves by its length; there is no step at End, at Incomplete or
once the refusal mark is set (which this model answers with the named stops idle, held and stopped: notes/assumptions/2.md and 3.md);
an illegal opcode raises the refusal (spec/40_commands.md section 1, spec/60_exceptions.md section 1). -/
def Obligations.StepRunsTheDecodedCommand : Prop :=
  (∀ s : State, s.refused = false →
    (∀ i n u, decode (remaining s) = .cmd i n → exec i s = .next u → step s = .next { u with cp := u.cp + n }) ∧
    (∀ i n f, decode (remaining s) = .cmd i n → exec i s = .fault f → step s = .fault f) ∧
    (decode (remaining s) = .done → step s = .fault .idle) ∧
    (decode (remaining s) = .incomplete → step s = .fault .held) ∧
    (∀ op, decode (remaining s) = .illegal op → step s = .next (raiseRefuse op s))) ∧
  (∀ s : State, s.refused = true → step s = .refused (.stopped s.recorded))

/-- A command advances the command pointer by exactly its own length, 1 byte for format A and 9 + N for format B, and nothing else
moves it (spec/30_encoding.md R59). -/
def Obligations.CommandPointerMovesByTheCommandsLength : Prop :=
  (∀ i : Instr, commandLength i = match i.format with | .A => 1 | .B => 9 + i.payload.length) ∧
  (∀ s t i, exec i s = .next t → t.cp = s.cp) ∧
  (∀ s t i n, s.refused = false → decode (remaining s) = .cmd i n → step s = .next t →
    n = commandLength i ∧ t.cp = s.cp + commandLength i) ∧
  (∀ s t op, decode (remaining s) = .illegal op → step s = .next t → t.cp = s.cp)

/-- A command whose bytes have not all arrived does not execute: the block holds and the run is not finished, for as long as it stays
incomplete; once the remaining bytes arrive it executes (spec/30_encoding.md R61). -/
def Obligations.IncompleteCommandHolds : Prop :=
  ∀ s : State, Held s →
    (∀ t, step s ≠ .next t) ∧ ¬ Finished s ∧
    ∀ more : List Byte,
      (decode (remaining s ++ more) = .incomplete → Held (hostAppend more s) ∧ ∀ t, step (hostAppend more s) ≠ .next t) ∧
      (∀ i n, decode (remaining s ++ more) = .cmd i n →
        step (hostAppend more s) = advance n (exec i (hostAppend more s)))

/-- The refusal of an illegal opcode: it sets the mark and records the opcode byte and the command pointer, leaves everything else as
it was, and stops decoding for good: no byte is decoded after it, the run is never finished, and only a power-on clears the mark
(spec/60_exceptions.md R107). -/
def Obligations.RefusalIsPreciseAndFinal : Prop :=
  (∀ (s : State) (op : Byte), s.refused = false → decode (remaining s) = .illegal op →
    ∃ t, step s = .next t ∧ t.refused = true ∧ t.recorded = some ⟨op, s.cp⟩ ∧ t.hasher = s.hasher ∧ t.cp = s.cp ∧
      t.resp = s.resp ∧ t.stream = s.stream) ∧
  (∀ s : State, s.refused = true → ¬ Finished s ∧ ∀ (more : List Byte) (t : State), step (hostAppend more s) ≠ .next t) ∧
  (∀ s t : State, step s = .next t → s.refused = false) ∧
  (∀ stream : List Byte, (powerOn stream).refused = false)

/-- The block reads the command stream once, in order, and never writes it: what stands before the command pointer has no effect on a
command's step (spec/20_memory.md section 1). -/
def Obligations.CommandStreamIsReadOnceAndNeverWritten : Prop :=
  ∀ s t : State, step s = .next t →
    t.stream = s.stream ∧
    (t.refused = false → ∀ consumed : List Byte,
      step { s with stream := consumed ++ remaining s, cp := consumed.length } =
        .next { t with stream := consumed ++ remaining s, cp := consumed.length + (t.cp - s.cp) })

/-- The response stream is only ever appended to, by FINALIZE and HASH, 64 bytes each, and the block never reads it back: with other
responses before it a step does the same (spec/10_state.md section 2, spec/20_memory.md section 1). -/
def Obligations.ResponsesAreAppendedAndNeverReadBack : Prop :=
  ∀ s t : State, step s = .next t → ∃ out : List Byte,
    t.resp = s.resp ++ out ∧
    (out = [] ∨ out.length = 64 ∧ ∃ i n, decode (remaining s) = .cmd i n ∧ (i = .finalize ∨ ∃ data, i = .hash data)) ∧
    ∀ r : List Byte, step { s with resp := r } = .next { t with resp := r ++ out }

/-- A stream that spells commands executes them in stream order, one a step, each seeing the state the one before it left; after the
last the run has finished and the block is idle (spec/20_memory.md section 5, spec/40_commands.md section 7,
spec/70_reset_and_hazards.md section 3; the stop idle is notes/assumptions/3.md). -/
def Obligations.StreamOfCommandsRunsInOrder : Prop :=
  ∀ (is : List Instr) (s : State) (rest : List Byte), (∀ i ∈ is, i.WellFormed) → s.refused = false → s.hasher.Buffered →
    remaining s = is.flatMap encode ++ rest →
    ∃ t u, execAll is s = .next t ∧ runSteps is.length s = .next u ∧
      u = { t with cp := s.cp + (is.flatMap encode).length } ∧ remaining u = rest ∧
      (rest = [] → Finished u ∧ step u = .fault .idle)

/-- A finished run is idle with its state unchanged, and a command the host supplies later executes from that state
(spec/60_exceptions.md section 5, spec/70_reset_and_hazards.md section 3; the stop idle is notes/assumptions/3.md). -/
def Obligations.IdleBlockResumesWhenBytesArrive : Prop :=
  ∀ s : State, Finished s → s.cp ≤ s.stream.length →
    step s = .fault .idle ∧
    ∀ i : Instr, i.WellFormed →
      step (hostAppend (encode i) s) = advance (commandLength i) (exec i (hostAppend (encode i) s))

/-! INIT -/

/-- INIT resets the instance from any state and touches nothing else; it emits nothing and is idempotent. No byte of the buffer has a
value after it (that is the model's choice for the spec's unspecified bytes: notes/assumptions/1.md)
(spec/40_commands.md section 2, spec/10_state.md section 5). -/
def Obligations.InitResetsTheInstance : Prop :=
  ∀ s : State, ∃ t,
    exec .init s = .next t ∧ t = { s with hasher := t.hasher } ∧
    t.hasher.H = IV ∧ t.hasher.fill = 0 ∧ t.hasher.bitlen = 0 ∧ t.hasher.phase = .fresh ∧
    (∀ a, t.hasher.buf.readByte a = none) ∧ exec .init t = .next t

/-! UPDATE -/

/-- UPDATE completes in every state whose buffer and fill level agree: it adds 8N to the bit count modulo 2^64, sets the phase, and
absorbs the payload: the complete blocks of the buffered bytes followed by the payload are compressed in order, and the bytes left
over stay buffered at offsets 0, 1, ... . Nothing else changes (spec/40_commands.md section 3; that flushed bytes keep no value in
the buffer is notes/assumptions/1.md). -/
def Obligations.UpdateAbsorbsItsPayload : Prop :=
  ∀ (s : State) (data : List Byte), s.hasher.Buffered →
    exec (.update data) s = .next
      { s with
        hasher :=
          { H := digestOver s.hasher.H (s.hasher.buf.bytes ++ data)
            buf := Memory.ofBytes (leftover (s.hasher.buf.bytes ++ data))
            fill := (s.hasher.fill + data.length) % 64
            bitlen := BitVec.ofNat 64 (s.hasher.bitlen.toNat + 8 * data.length)
            phase := .accumulating } }

/-- An UPDATE that does not fill the buffer only buffers its bytes, at offsets fill, fill + 1, ...: no transform runs and every other
byte of the buffer reads as before (spec/40_commands.md section 3). -/
def Obligations.ShortUpdateOnlyBuffers : Prop :=
  ∀ (s : State) (data : List Byte), s.hasher.Buffered → s.hasher.fill + data.length < 64 → ∃ t,
    exec (.update data) s = .next t ∧ t = { s with hasher := t.hasher } ∧
    t.hasher.H = s.hasher.H ∧ t.hasher.fill = s.hasher.fill + data.length ∧
    t.hasher.bitlen = s.hasher.bitlen + BitVec.ofNat 64 (8 * data.length) ∧ t.hasher.phase = .accumulating ∧
    ∀ a, t.hasher.buf.readByte a =
      if s.hasher.fill ≤ a ∧ a < s.hasher.fill + data.length then data[a - s.hasher.fill]? else s.hasher.buf.readByte a

/-- An UPDATE that exactly fills the buffer runs one transform, on the 64 bytes in arrival order: the buffered ones first, then the
payload; fill ends at 0 (spec/40_commands.md section 3; that no byte of the buffer has a value then is notes/assumptions/1.md). -/
def Obligations.FillingUpdateCompressesTheBlock : Prop :=
  ∀ (s : State) (data : List Byte), s.hasher.Buffered → s.hasher.fill + data.length = 64 → ∃ (t : State) (B : Block),
    exec (.update data) s = .next t ∧ t = { s with hasher := t.hasher } ∧
    (∀ (j : Nat) (hj : j < 64), some B[j] = if j < s.hasher.fill then s.hasher.buf.readByte j else data[j - s.hasher.fill]?) ∧
    t.hasher.H = compress s.hasher.H B ∧ t.hasher.fill = 0 ∧
    t.hasher.bitlen = s.hasher.bitlen + BitVec.ofNat 64 (8 * data.length) ∧ t.hasher.phase = .accumulating ∧
    ∀ a, t.hasher.buf.readByte a = none

/-- An UPDATE of no bytes changes nothing but the phase, in every state (spec/40_commands.md section 3,
spec/10_state.md section 3). -/
def Obligations.EmptyUpdateChangesOnlyThePhase : Prop :=
  ∀ s : State, exec (.update []) s = .next (withPhase .accumulating s)

/-- The total-bit counter: UPDATE of N bytes adds 8N modulo 2^64 and never faults on the wrap; INIT and FINALIZE set it to 0; HASH
leaves it (spec/10_state.md section 2, decision D8). -/
def Obligations.BitCounterWrapsModulo2To64 : Prop :=
  (∀ (s : State) (data : List Byte), s.hasher.Buffered → ∃ t, exec (.update data) s = .next t ∧
    t.hasher.bitlen.toNat = (s.hasher.bitlen.toNat + 8 * data.length) % 2 ^ 64) ∧
  (∀ s, ∃ t, exec .init s = .next t ∧ t.hasher.bitlen = 0) ∧
  (∀ s : State, s.hasher.Buffered → ∃ t, exec .finalize s = .next t ∧ t.hasher.bitlen = 0) ∧
  (∀ s data, ∃ t, exec (.hash data) s = .next t ∧ t.hasher.bitlen = s.hasher.bitlen)

/-- The associativity law: UPDATE x followed by UPDATE y leaves the same state as one UPDATE of x ++ y
(spec/40_commands.md section 3). -/
def Obligations.ConsecutiveUpdatesAreOneUpdate : Prop :=
  ∀ (s : State) (x y : List Byte), s.hasher.Buffered → ∃ t u,
    exec (.update x) s = .next t ∧ exec (.update y) t = .next u ∧ exec (.update (x ++ y)) s = .next u

/-- The chunked copy and flush loop and the byte-at-a-time loop absorb the same way (spec/40_commands.md section 3). -/
def Obligations.ChunkLoopIsTheByteLoop : Prop :=
  ∀ (h : Hasher) (data : List Byte), h.Buffered → absorbChunks data.length h data = absorb h data

/-- A host that interleaves two messages on one instance gets one digest of the concatenated bytes. HASH computes a digest without
touching the instance, and it is the only command that does: one that responds and leaves an instance that was not already reset as it
was is a HASH (spec/70_reset_and_hazards.md R127). -/
def Obligations.InterleavedMessagesMix : Prop :=
  (∀ (s : State) (m x y z : List Byte), s.hasher.Holds m → ∃ t u,
    execAll [.update x, .update y, .update z] s = .next t ∧ exec .finalize t = .next u ∧
      u.resp = s.resp ++ sha256 (m ++ x ++ y ++ z)) ∧
  (∀ (s : State) (x : List Byte), ∃ t, exec (.hash x) s = .next t ∧ t.hasher = s.hasher ∧ t.resp = s.resp ++ sha256 x) ∧
  (∀ (s t : State) (i : Instr), exec i s = .next t → t.hasher = s.hasher → s.hasher ≠ Hasher.reset → t.resp ≠ s.resp →
    ∃ x, i = .hash x)

/-! FINALIZE -/

/-- FINALIZE completes in every state whose buffer and fill level agree: it compresses the buffered bytes followed by the padding and
the length field (the bit count as it stands), emits the 64 digits of the digest, and resets the instance. Nothing else changes
(spec/40_commands.md section 4, spec/41_padding_serializer.md section 1). -/
def Obligations.FinalizeEmitsTheDigestAndResets : Prop :=
  ∀ s : State, s.hasher.Buffered →
    exec .finalize s = .next
      { s with
        hasher := Hasher.reset
        resp := s.resp ++
          serialize (digestOver s.hasher.H (s.hasher.buf.bytes ++ pad s.hasher.fill ++ lengthField s.hasher.bitlen)) }

/-- FINALIZE returns the digest of all bytes consumed since the last reset: in a context that holds the message m it emits the
digest of m's padded blocks compressed from IV (spec/40_commands.md section 4, spec/41_padding_serializer.md section 1). -/
def Obligations.FinalizeEmitsTheMessagesDigest : Prop :=
  ∀ (s : State) (m : List Byte), s.hasher.Holds m →
    exec .finalize s = .next { s with hasher := Hasher.reset, resp := s.resp ++ sha256 m }

/-- After FINALIZE the message is gone: a second FINALIZE emits the empty-message digest, and a following UPDATE starts a new message
(spec/70_reset_and_hazards.md R126). -/
def Obligations.AfterFinalizeTheMessageIsGone : Prop :=
  ∀ s : State, s.hasher.Buffered → ∃ t, exec .finalize s = .next t ∧
    (∃ u, exec .finalize t = .next u ∧
      u.resp = t.resp ++ asciiBytes "e3b0c44298fc1c149afbf4c8996fb92427ae41e4649b934ca495991b7852b855") ∧
    (∀ data, ∃ v, exec (.update data) t = .next v ∧ v.hasher.Holds data)

/-- The padding length is the least positive p with (L + p) mod 64 = 56; it is 1 for L = 55, where the
padding ends in the same block, and 64 for L = 56, where it needs a second block (spec/41_padding_serializer.md R79). -/
def Obligations.PadLenIsTheLeastPositive : Prop :=
  (∀ L, L < 64 → padLen L = (if L < 56 then 56 - L else 120 - L)) ∧
  (∀ L, L < 64 → 1 ≤ padLen L ∧ padLen L ≤ 64 ∧ (L + padLen L) % 64 = 56 ∧ ∀ p, 1 ≤ p → (L + p) % 64 = 56 → padLen L ≤ p) ∧
  padLen 55 = 1 ∧ 55 + padLen 55 + 8 = 64 ∧ padLen 56 = 64 ∧ 56 + padLen 56 + 8 = 128

/-- After both appends of the finalizer fill is 0, and they run one transform if fill was below 56 and two otherwise
(spec/41_padding_serializer.md section 1). -/
def Obligations.PaddingCompletesOneOrTwoBlocks : Prop :=
  ∀ h : Hasher, h.Buffered → ∃ h', padPath h = .ok h' ∧ h'.fill = 0 ∧
    padCounting h = .ok (h', if h.fill < 56 then 1 else 2)

/-- The final block or blocks, byte by byte (spec/41_padding_serializer.md section 1). -/
def Obligations.FinalBlocksHaveTheLayout : Prop :=
  ∀ (m : List Byte) (len0 : Count), m.length < 64 →
    (m.length ≤ 55 → ∃ B : Block, wholeBlocks (m ++ pad m.length ++ lengthField len0) = [B] ∧
      ∀ (j : Nat) (hj : j < 64), B[j] =
        if j < m.length then m.getD j 0 else if j = m.length then 0x80 else if j < 56 then 0 else (be64bytes len0).getD (j - 56) 0) ∧
    (56 ≤ m.length → ∃ B C : Block, wholeBlocks (m ++ pad m.length ++ lengthField len0) = [B, C] ∧
      (∀ (j : Nat) (hj : j < 64), B[j] = if j < m.length then m.getD j 0 else if j = m.length then 0x80 else 0) ∧
      (∀ (j : Nat) (hj : j < 64), C[j] = if j < 56 then 0 else (be64bytes len0).getD (j - 56) 0))

/-- The padded message is the standard's: a 1 bit (the first bit of 0x80) and the least number k of 0 bits with
8T + 1 + k ≡ 448 (mod 512), then the 64-bit length; its length is a multiple of 64 bytes (spec/41_padding_serializer.md section 1;
the bit-level formula is the spec's own general knowledge G6). -/
def Obligations.PaddedMessageIsTheStandards : Prop :=
  ∀ m : List Byte, ∃ k : Nat,
    paddedMessage m = m ++ [0x80#8] ++ zeros ((k + 1) / 8 - 1) ++ be64bytes (BitVec.ofNat 64 (8 * m.length)) ∧
    (k + 1) % 8 = 0 ∧ 7 ≤ k ∧ (8 * m.length + 1 + k) % 512 = 448 ∧
    (∀ k', (8 * m.length + 1 + k') % 512 = 448 → k ≤ k') ∧ (paddedMessage m).length % 64 = 0

/-! HASH -/

/-- HASH completes in every state and for every payload: it emits the digest of the payload and changes nothing else, the instance
included (spec/40_commands.md section 5). -/
def Obligations.HashEmitsTheDigestAndLeavesTheInstance : Prop :=
  ∀ (s : State) (data : List Byte), exec (.hash data) s = .next { s with resp := s.resp ++ sha256 data }

/-- HASH and the incremental path agree, however the bytes are partitioned: INIT, one UPDATE for each part and FINALIZE emit what HASH
of the whole emits (spec/40_commands.md section 5). -/
def Obligations.HashAgreesWithTheIncrementalPath : Prop :=
  ∀ (s s' : State) (parts : List (List Byte)), ∃ t u out,
    exec (.hash parts.flatten) s = .next t ∧ t.resp = s.resp ++ out ∧ out.length = 64 ∧
    execAll (.init :: (parts.map Instr.update ++ [.finalize])) s' = .next u ∧ u.resp = s'.resp ++ out

/-! The block transform -/

/-- Rotation and logical right shift, bit by bit, for 0 < n < 32, and the four sigma functions built of them
(spec/42_transform.md R91 to R95). -/
def Obligations.RotationsShiftsAndSigmasByBit : Prop :=
  (∀ (x : Word) (n i : Nat), 0 < n → n < 32 → i < 32 →
    (rotr x n).getLsbD i = x.getLsbD ((i + n) % 32) ∧
    rotr x n = (x >>> n) ||| (x <<< (32 - n)) ∧
    (x >>> n).getLsbD i = (decide (i < 32 - n) && x.getLsbD (i + n))) ∧
  (∀ x : Word,
    smallSigma0 x = rotr x 7 ^^^ rotr x 18 ^^^ (x >>> 3) ∧ smallSigma1 x = rotr x 17 ^^^ rotr x 19 ^^^ (x >>> 10) ∧
    bigSigma0 x = rotr x 2 ^^^ rotr x 13 ^^^ rotr x 22 ∧ bigSigma1 x = rotr x 6 ^^^ rotr x 11 ^^^ rotr x 25)

/-- Ch chooses and Maj takes the majority at each bit, and both have the equivalent forms the spec gives
(spec/42_transform.md section 2). -/
def Obligations.ChoiceAndMajorityByBit : Prop :=
  ∀ x y z : Word,
    (∀ i, i < 32 → (ch x y z).getLsbD i = if x.getLsbD i then y.getLsbD i else z.getLsbD i) ∧
    (∀ i, i < 32 → (maj x y z).getLsbD i =
      decide (2 ≤ (x.getLsbD i).toNat + (y.getLsbD i).toNat + (z.getLsbD i).toNat)) ∧
    ch x y z = z ^^^ (x &&& (y ^^^ z)) ∧ maj x y z = (x &&& y) ||| (z &&& (x ||| y))

/-- The message schedule: the sixteen big-endian words of the block, which are what MemRead(4t, 4) reads from the full buffer, then the
recurrence (spec/42_transform.md section 3). -/
def Obligations.ScheduleIsTheRecurrence : Prop :=
  ∀ B : Block,
    (∀ (t : Nat) (ht : t < 16), (expand B)[t] = be32 B[4 * t] B[4 * t + 1] B[4 * t + 2] B[4 * t + 3]) ∧
    (∀ (t : Nat) (h16 : 16 ≤ t) (h64 : t < 64),
      (expand B)[t] = (expand B)[t - 16] + smallSigma0 (expand B)[t - 15] + (expand B)[t - 7] + smallSigma1 (expand B)[t - 2]) ∧
    (∀ m : Memory, readBytes m 0 64 = .ok B → ∀ (t : Nat) (ht : t < 16), memRead m (4 * t) 4 = .ok (expand B)[t])

/-- An expander that keeps only a sixteen-word sliding window produces the same schedule (spec/42_transform.md section 3). -/
def Obligations.SlidingWindowGivesTheSchedule : Prop :=
  ∀ (B : Block) (k j : Nat) (hk : k ≤ 48) (hj : j < 16), (windowAfter B k)[j] = (expand B)[k + j]

/-- The compressor: working variables from the digest, 64 rounds of simultaneous assignments, each with its own round constant and
schedule word, and the digest add onto the input digest (spec/42_transform.md section 4). -/
def Obligations.CompressIsSixtyFourRoundsAndAnAdd : Prop :=
  ∀ (H : Digest) (B : Block), ∃ V : Nat → WorkVars,
    V 0 = ⟨H[0], H[1], H[2], H[3], H[4], H[5], H[6], H[7]⟩ ∧
    (∀ (t : Nat) (ht : t < 64), ∃ T1 T2 : Word,
      T1 = (V t).h + bigSigma1 (V t).e + ch (V t).e (V t).f (V t).g + K[t] + (expand B)[t] ∧
      T2 = bigSigma0 (V t).a + maj (V t).a (V t).b (V t).c ∧
      V (t + 1) = ⟨T1 + T2, (V t).a, (V t).b, (V t).c, (V t).d + T1, (V t).e, (V t).f, (V t).g⟩) ∧
    compress H B = #v[H[0] + (V 64).a, H[1] + (V 64).b, H[2] + (V 64).c, H[3] + (V 64).d,
      H[4] + (V 64).e, H[5] + (V 64).f, H[6] + (V 64).g, H[7] + (V 64).h]

/-- The constant tables are the first 32 bits of the fractional parts of the cube roots of the first 64 primes and of the square roots
of the first 8 (spec/42_transform.md section 5; the definition is the spec's own general knowledge G2, G3). -/
def Obligations.ConstantsAreTheRootsOfThePrimes : Prop :=
  (∀ (t : Nat) (ht : t < 64), ∃ p q : Nat, p.Prime ∧ Nat.count Nat.Prime p = t ∧
    (q * 2 ^ 32 + K[t].toNat) ^ 3 ≤ p * 2 ^ 96 ∧ p * 2 ^ 96 < (q * 2 ^ 32 + K[t].toNat + 1) ^ 3) ∧
  (∀ (i : Nat) (hi : i < 8), ∃ p q : Nat, p.Prime ∧ Nat.count Nat.Prime p = i ∧
    (q * 2 ^ 32 + IV[i].toNat) ^ 2 ≤ p * 2 ^ 64 ∧ p * 2 ^ 64 < (q * 2 ^ 32 + IV[i].toNat + 1) ^ 2)

/-! The serializer -/

/-- Output byte 8i + (7 - d) is the digit of bits 4d+3 : 4d of H[i]; 64 bytes in all; every word takes eight digits
(spec/41_padding_serializer.md R86, with the digits of R87). -/
def Obligations.SerializerGivesTheDigits : Prop :=
  (∀ H : Digest, (serialize H).length = 64 ∧
    ∀ (i d : Nat) (hi : i < 8), d < 8 → (serialize H)[8 * i + (7 - d)]? = some (hexChar (BitVec.ofNat 4 (H[i].toNat / 2 ^ (4 * d))))) ∧
  (∀ v : BitVec 4, hexChar v =
    (if v.toNat < 10 then BitVec.ofNat 8 (0x30 + v.toNat) else BitVec.ofNat 8 (0x61 + (v.toNat - 10)))) ∧
  serializeWord 0x00635e66#32 = asciiBytes "00635e66"

/-- The serializer is a bijection from digests onto the 64-character lowercase hexadecimal strings
(spec/41_padding_serializer.md section 2). -/
def Obligations.SerializerIsABijection : Prop :=
  (∀ H : Digest, (serialize H).length = 64 ∧ ∀ b ∈ serialize H, isHexCode b = true) ∧
  (∀ H H' : Digest, serialize H = serialize H' → H = H') ∧
  (∀ out : List Byte, out.length = 64 → (∀ b ∈ out, isHexCode b = true) → ∃ H : Digest, serialize H = out)

/-! The pending buffer -/

/-- MemRead joins n bytes big-endian and is defined only inside the buffer (spec/20_memory.md section 2; that a byte nothing has
stored has no value, so that reading it stops, and the name of the stop outside the buffer are the model's choice:
notes/assumptions/1.md). -/
def Obligations.MemReadJoinsBytesBigEndian : Prop :=
  ∀ (m : Memory) (addr n : Nat),
    (∀ v : BitVec (8 * n), memRead m addr n = .ok v ↔
      addr + n ≤ 64 ∧ ∀ k, k < n → m.readByte (addr + k) = some (v.extractLsb' (8 * (n - k) - 8) 8)) ∧
    (64 < addr + n → memRead m addr n = .error (.bufferOffsetOutOfRange addr n))

/-- MemWrite stores the value's bytes, most significant first, at offsets addr .. addr+n-1, leaves every other byte as it was, and is
defined only inside the buffer (spec/20_memory.md section 2). That outside the buffer it stops with the fault bufferOffsetOutOfRange,
and that it keeps the canonical form, are the model's choice: notes/assumptions/1.md. -/
def Obligations.MemWriteStoresBytesBigEndian : Prop :=
  ∀ (m : Memory) (addr n : Nat) (v : BitVec (8 * n)),
    (addr + n ≤ 64 → ∃ m', memWrite m addr n v = .ok m' ∧ (m.wf → m'.wf) ∧
      ∀ a, m'.readByte a =
        if addr ≤ a ∧ a < addr + n then some (v.extractLsb' (8 * (n - (a - addr)) - 8) 8) else m.readByte a) ∧
    (64 < addr + n → memWrite m addr n v = .error (.bufferOffsetOutOfRange addr n))

/-- Four bytes written one at a time at offsets 4t .. 4t+3 read back as the word be32(b0, b1, b2, b3)
(spec/20_memory.md section 2). -/
def Obligations.BytesWrittenReadBackAsAWord : Prop :=
  ∀ (m : Memory) (t : Nat) (b0 b1 b2 b3 : Byte), t < 16 → ∃ m0 m1 m2 m3 : Memory,
    memWrite m (4 * t) 1 b0 = .ok m0 ∧ memWrite m0 (4 * t + 1) 1 b1 = .ok m1 ∧
    memWrite m1 (4 * t + 2) 1 b2 = .ok m2 ∧ memWrite m2 (4 * t + 3) 1 b3 = .ok m3 ∧
    memRead m3 (4 * t) 4 = .ok (be32 b0 b1 b2 b3)

/-- The sequencer keeps the buffer's canonical form from every state, also one whose buffer and fill level disagree
(spec/20_memory.md section 4; the canonical form is notes/assumptions/1.md). -/
def Obligations.CommandsKeepTheCanonicalBuffer : Prop :=
  ∀ (i : Instr) (s t : State), s.hasher.buf.wf → exec i s = .next t → t.hasher.buf.wf

/-! Invariants and whole-machine rules -/

/-- Every step from a state between commands leads to a state between commands: the fill level stays in 0..63 and counts the buffered
bytes and the bit count, the bit count stays whole bytes, FINALIZING is never seen, a FRESH instance is the reset instance, the
pointer stays in the stream, the responses stay whole digests, and the refusal mark tells what it recorded
(spec/10_state.md section 6). -/
def Obligations.StepKeepsTheInvariant : Prop :=
  ∀ s t : State, s.Inv → step s = .next t → t.Inv

/-- Every well-formed command completes in every state between commands, with exactly one response, and leaves a state between commands
(spec/40_commands.md section 6). -/
def Obligations.EveryCommandCompletesBetweenCommands : Prop :=
  ∀ (s : State) (i : Instr), s.Inv → i.WellFormed → ∃ t out,
    exec i s = .next t ∧ t.hasher.Inv ∧ t = { s with hasher := t.hasher, resp := s.resp ++ out } ∧
    (out.length = match i with | .init => 0 | .update _ => 0 | .finalize => 64 | .hash _ => 64)

/-- The message history: a context that holds the bytes delivered since the last reset (their complete blocks compressed in order from
IV, the rest buffered, their number counted) holds, after each command, the bytes delivered by then; what the command emits is the
digest the standard gives (spec/10_state.md section 6). -/
def Obligations.CommandsKeepTheMessageHistory : Prop :=
  (∀ stream : List Byte, (powerOn stream).hasher.Holds []) ∧
  (∀ (s : State) (m : List Byte) (i : Instr), s.hasher.Holds m → ∃ t,
    exec i s = .next t ∧ t.hasher.Holds (messageAfter m i) ∧ t.resp = s.resp ++ responseOf m i)

/-- The phase after each command is that of the state machine's table, from every phase (spec/40_commands.md section 6). -/
def Obligations.PhaseFollowsTheStateMachine : Prop :=
  (∀ (s : State) (i : Instr), s.hasher.Buffered → ∃ t, exec i s = .next t ∧ t.hasher.phase = s.hasher.phase.after i) ∧
  (∀ (p : Phase) (data : List Byte), p.after .init = .fresh ∧ p.after (.update data) = .accumulating ∧
    p.after .finalize = .fresh ∧ p.after (.hash data) = p)

/-- No command's effect depends on the phase: from states that differ in the phase alone, a command stops alike, or gives next states
that differ in the phase alone (spec/10_state.md section 3). -/
def Obligations.NoEffectDependsOnThePhase : Prop :=
  ∀ (i : Instr) (p : Phase) (s : State),
    (∀ t, exec i s = .next t → ∃ t', exec i (withPhase p s) = .next t' ∧ withPhase .fresh t' = withPhase .fresh t) ∧
    (∀ f, exec i s = .fault f → exec i (withPhase p s) = .fault f)

/-- The operation counts: INIT runs no transform, an UPDATE of N bytes from fill level f runs (f + N) / 64, FINALIZE one if fill is at
most 55 and two otherwise, a HASH of N bytes N / 64 and one or two more; and the counting functions follow the real ones
(spec/70_reset_and_hazards.md section 5). -/
def Obligations.TransformCountsPerCommand : Prop :=
  (∀ s, commandTransforms .init s = .ok 0) ∧
  (∀ (s : State) (data : List Byte), s.hasher.Buffered →
    commandTransforms (.update data) s = .ok ((s.hasher.fill + data.length) / 64)) ∧
  (∀ s : State, s.hasher.Buffered → commandTransforms .finalize s = .ok (if s.hasher.fill ≤ 55 then 1 else 2)) ∧
  (∀ (s : State) (data : List Byte),
    commandTransforms (.hash data) s = .ok (data.length / 64 + if data.length % 64 ≤ 55 then 1 else 2)) ∧
  (∀ (h t : Hasher) (data : List Byte) (n : Nat), updateCounting h data = .ok (t, n) → updatePath h data = .ok t)

/-- Instances are independent: stepping one leaves every other as it was, and the order of steps of two instances does not matter
(spec/20_memory.md section 5). -/
def Obligations.InstancesAreIndependent : Prop :=
  ∀ (n : Nat) (k j : Fin n) (v w : Vector State n), stepInstance k v = .next w →
    step v[k.val] = .next w[k.val] ∧
    (j ≠ k → w[j.val] = v[j.val] ∧
      ∀ x, stepInstance j w = .next x → ∃ y, stepInstance j v = .next y ∧ stepInstance k y = .next x)

/-! The assembler -/

/-- Pseudo-commands: REPEAT is an UPDATE of n copies of a byte, and the UPDATEs that UPDATE_SPLIT expands to absorb what one UPDATE of
the whole string absorbs (spec/30_encoding.md section 6). -/
def Obligations.PseudoCommandsAreUpdates : Prop :=
  (∀ b n, repeatCommand b n = .update (List.replicate n b)) ∧
  (∀ (text : List Byte) (offsets : List Nat) (is : List Instr), splitCommands text offsets = some is →
    (∃ ps : List (List Byte), is = ps.map Instr.update ∧ ps.flatten = text ∧ ps.length = offsets.length + 1) ∧
    ∀ s : State, s.hasher.Buffered → ∃ t, execAll is s = .next t ∧ exec (.update text) s = .next t)

/-- The assembler's payload operands: digit pairs spell any byte sequence, and the spec's example line encodes as the spec says
(spec/30_encoding.md section 6). -/
def Obligations.HexOperandsSpellAnyPayload : Prop :=
  (∀ data : List Byte,
    payloadOperand ('h' :: 'e' :: 'x' :: ':' :: data.flatMap fun b =>
      [Char.ofNat (hexChar (b.extractLsb' 4 4)).toNat, Char.ofNat (hexChar (b.extractLsb' 0 4)).toNat]) = some data) ∧
  assemble ["UPDATE \"abc\"".toList] = some [0x02, 0x00, 0x00, 0x00, 0x00, 0x00, 0x00, 0x00, 0x03, 0x61, 0x62, 0x63]
end

