-- ==== Sys2Proof/Laws/State.lean ====
section
/-! SUPPORT. One lemma per field per update of the state, true by rfl, so that no later proof unfolds a record update. -/

namespace Sys2Proof.Machine

/-! Operations on the machine -/

@[simp] theorem emit_hasher (out : List Byte) (s : State) : (emit out s).hasher = s.hasher := rfl
@[simp] theorem emit_stream (out : List Byte) (s : State) : (emit out s).stream = s.stream := rfl
@[simp] theorem emit_cp (out : List Byte) (s : State) : (emit out s).cp = s.cp := rfl
@[simp] theorem emit_resp (out : List Byte) (s : State) : (emit out s).resp = s.resp ++ out := rfl
@[simp] theorem emit_refused (out : List Byte) (s : State) : (emit out s).refused = s.refused := rfl
@[simp] theorem emit_recorded (out : List Byte) (s : State) : (emit out s).recorded = s.recorded := rfl
@[simp] theorem resetInstance_hasher (s : State) : (resetInstance s).hasher = Hasher.reset := rfl
@[simp] theorem resetInstance_stream (s : State) : (resetInstance s).stream = s.stream := rfl
@[simp] theorem resetInstance_cp (s : State) : (resetInstance s).cp = s.cp := rfl
@[simp] theorem resetInstance_resp (s : State) : (resetInstance s).resp = s.resp := rfl
@[simp] theorem resetInstance_refused (s : State) : (resetInstance s).refused = s.refused := rfl
@[simp] theorem resetInstance_recorded (s : State) : (resetInstance s).recorded = s.recorded := rfl
@[simp] theorem raiseRefuse_hasher (op : Byte) (s : State) : (raiseRefuse op s).hasher = s.hasher := rfl
@[simp] theorem raiseRefuse_stream (op : Byte) (s : State) : (raiseRefuse op s).stream = s.stream := rfl
@[simp] theorem raiseRefuse_cp (op : Byte) (s : State) : (raiseRefuse op s).cp = s.cp := rfl
@[simp] theorem raiseRefuse_resp (op : Byte) (s : State) : (raiseRefuse op s).resp = s.resp := rfl
@[simp] theorem raiseRefuse_refused (op : Byte) (s : State) : (raiseRefuse op s).refused = true := rfl
@[simp] theorem raiseRefuse_recorded (op : Byte) (s : State) : (raiseRefuse op s).recorded = some ⟨op, s.cp⟩ := rfl
@[simp] theorem hostAppend_hasher (more : List Byte) (s : State) : (hostAppend more s).hasher = s.hasher := rfl
@[simp] theorem hostAppend_stream (more : List Byte) (s : State) : (hostAppend more s).stream = s.stream ++ more := rfl
@[simp] theorem hostAppend_cp (more : List Byte) (s : State) : (hostAppend more s).cp = s.cp := rfl
@[simp] theorem hostAppend_resp (more : List Byte) (s : State) : (hostAppend more s).resp = s.resp := rfl
@[simp] theorem hostAppend_refused (more : List Byte) (s : State) : (hostAppend more s).refused = s.refused := rfl
@[simp] theorem hostAppend_recorded (more : List Byte) (s : State) : (hostAppend more s).recorded = s.recorded := rfl
@[simp] theorem withPhase_hasher (p : Phase) (s : State) : (withPhase p s).hasher = { s.hasher with phase := p } := rfl
@[simp] theorem withPhase_stream (p : Phase) (s : State) : (withPhase p s).stream = s.stream := rfl
@[simp] theorem withPhase_cp (p : Phase) (s : State) : (withPhase p s).cp = s.cp := rfl
@[simp] theorem withPhase_resp (p : Phase) (s : State) : (withPhase p s).resp = s.resp := rfl
@[simp] theorem withPhase_refused (p : Phase) (s : State) : (withPhase p s).refused = s.refused := rfl
@[simp] theorem withPhase_recorded (p : Phase) (s : State) : (withPhase p s).recorded = s.recorded := rfl

/-! Operations on a hasher context -/

@[simp] theorem Hasher.beginUpdate_H (h : Hasher) : h.beginUpdate.H = h.H := rfl
@[simp] theorem Hasher.beginUpdate_buf (h : Hasher) : h.beginUpdate.buf = h.buf := rfl
@[simp] theorem Hasher.beginUpdate_fill (h : Hasher) : h.beginUpdate.fill = h.fill := rfl
@[simp] theorem Hasher.beginUpdate_bitlen (h : Hasher) : h.beginUpdate.bitlen = h.bitlen := rfl
@[simp] theorem Hasher.beginUpdate_phase (h : Hasher) : h.beginUpdate.phase = .accumulating := rfl
@[simp] theorem Hasher.beginFinalize_H (h : Hasher) : h.beginFinalize.H = h.H := rfl
@[simp] theorem Hasher.beginFinalize_buf (h : Hasher) : h.beginFinalize.buf = h.buf := rfl
@[simp] theorem Hasher.beginFinalize_fill (h : Hasher) : h.beginFinalize.fill = h.fill := rfl
@[simp] theorem Hasher.beginFinalize_bitlen (h : Hasher) : h.beginFinalize.bitlen = h.bitlen := rfl
@[simp] theorem Hasher.beginFinalize_phase (h : Hasher) : h.beginFinalize.phase = .finalizing := rfl
@[simp] theorem countBits_H (h : Hasher) (n : Nat) : (countBits h n).H = h.H := rfl
@[simp] theorem countBits_buf (h : Hasher) (n : Nat) : (countBits h n).buf = h.buf := rfl
@[simp] theorem countBits_fill (h : Hasher) (n : Nat) : (countBits h n).fill = h.fill := rfl
@[simp] theorem countBits_bitlen (h : Hasher) (n : Nat) : (countBits h n).bitlen = h.bitlen + BitVec.ofNat 64 (8 * n) := rfl
@[simp] theorem countBits_phase (h : Hasher) (n : Nat) : (countBits h n).phase = h.phase := rfl

/-! The reset context and the power-on state (R30, R120) -/

@[simp] theorem Hasher.reset_H : Hasher.reset.H = IV := rfl
@[simp] theorem Hasher.reset_buf : Hasher.reset.buf = [] := rfl
@[simp] theorem Hasher.reset_fill : Hasher.reset.fill = 0 := rfl
@[simp] theorem Hasher.reset_bitlen : Hasher.reset.bitlen = 0 := rfl
@[simp] theorem Hasher.reset_phase : Hasher.reset.phase = .fresh := rfl
@[simp] theorem State.reset_hasher : State.reset.hasher = Hasher.reset := rfl
@[simp] theorem State.reset_stream : State.reset.stream = [] := rfl
@[simp] theorem State.reset_cp : State.reset.cp = 0 := rfl
@[simp] theorem State.reset_resp : State.reset.resp = [] := rfl
@[simp] theorem State.reset_refused : State.reset.refused = false := rfl
@[simp] theorem State.reset_recorded : State.reset.recorded = none := rfl
@[simp] theorem powerOn_hasher (stream : List Byte) : (powerOn stream).hasher = Hasher.reset := rfl
@[simp] theorem powerOn_stream (stream : List Byte) : (powerOn stream).stream = stream := rfl
@[simp] theorem powerOn_cp (stream : List Byte) : (powerOn stream).cp = 0 := rfl
@[simp] theorem powerOn_resp (stream : List Byte) : (powerOn stream).resp = [] := rfl
@[simp] theorem powerOn_refused (stream : List Byte) : (powerOn stream).refused = false := rfl
@[simp] theorem powerOn_recorded (stream : List Byte) : (powerOn stream).recorded = none := rfl

/-! The command pointer's move -/

@[simp] theorem advance_next (n : Nat) (s : State) : advance n (.next s) = .next { s with cp := s.cp + n } := rfl
@[simp] theorem advance_fault (n : Nat) (f : Fault) : advance n (.fault f) = .fault f := rfl
@[simp] theorem advance_refused (n : Nat) (r : Refusal) : advance n (.refused r) = .refused r := rfl

/-- Everything advance can do: it answers a next state exactly when its argument does, that state with the pointer moved. -/
theorem advance_eq_next {n : Nat} {o : Host.Outcome State Fault Refusal} {t : State} (h : advance n o = .next t) :
    ∃ u, o = .next u ∧ t = { u with cp := u.cp + n } := by
  cases o with
  | next u => exact ⟨u, rfl, by simpa using h.symm⟩
  | fault f => simp at h
  | refused r => simp at h

end Sys2Proof.Machine
end

