-- ==== Sys2Proof/Laws/Memory.lean ====
section
/-! SUPPORT. The pending buffer: read after write, the canonical form, and what the buffer accesses can do
(spec/20_memory.md R35, R38, R39, R40, R44). -/

namespace Sys2Proof.Machine

/-! One byte -/

theorem Memory.readByte_writeByte_same (m : Memory) (a : Nat) (b : Byte) : (m.writeByte a b).readByte a = some b := by
  induction m with
  | nil => simp [Memory.writeByte, Memory.readByte]
  | cons c m ih =>
    unfold Memory.writeByte
    split
    · simp [Memory.readByte]
    · split
      · simp [Memory.readByte]
      · next h => simp [Memory.readByte, Ne.symm h, ih]

theorem Memory.readByte_writeByte_other (m : Memory) {a a' : Nat} (b : Byte) (h : a' ≠ a) :
    (m.writeByte a b).readByte a' = m.readByte a' := by
  induction m with
  | nil => simp [Memory.writeByte, Memory.readByte, h.symm]
  | cons c m ih =>
    unfold Memory.writeByte
    split
    · simp [Memory.readByte, h.symm]
    · split
      · next h2 => subst h2; simp [Memory.readByte, h.symm]
      · simp [Memory.readByte, ih]

theorem Memory.mem_writeByte {m : Memory} {a : Nat} {b : Byte} {c : Host.Cell} (h : c ∈ m.writeByte a b) :
    c = (a, b) ∨ c ∈ m := by
  induction m with
  | nil => simpa [Memory.writeByte] using h
  | cons d m ih =>
    unfold Memory.writeByte at h
    split at h
    · simpa using h
    · split at h
      · rcases List.mem_cons.1 h with h | h
        · exact .inl h
        · exact .inr (List.mem_cons_of_mem _ h)
      · rcases List.mem_cons.1 h with h | h
        · exact .inr (h ▸ List.mem_cons_self)
        · exact (ih h).imp id (List.mem_cons_of_mem _)

/-- Storing a byte keeps the canonical form. -/
theorem Memory.writeByte_wf {m : Memory} {a : Nat} (b : Byte) (hm : m.wf) (ha : a < 64) : (m.writeByte a b).wf := by
  refine ⟨?_, fun c hc => ?_⟩
  · induction m with
    | nil => simp [Memory.writeByte]
    | cons c m ih =>
      have hc := List.pairwise_cons.1 hm.1
      unfold Memory.writeByte
      split
      · next hlt =>
        refine List.pairwise_cons.2 ⟨fun d hd => ?_, hm.1⟩
        rcases List.mem_cons.1 hd with rfl | hd
        · exact hlt
        · exact Nat.lt_trans hlt (hc.1 d hd)
      · split
        · next heq => exact List.pairwise_cons.2 ⟨fun d hd => heq ▸ hc.1 d hd, hc.2⟩
        · refine List.pairwise_cons.2 ⟨fun d hd => ?_, ih ⟨hc.2, fun d hd => hm.2 d (List.mem_cons_of_mem _ hd)⟩⟩
          rcases Memory.mem_writeByte hd with rfl | hd
          · show c.1 < a
            omega
          · exact hc.1 d hd
  · rcases Memory.mem_writeByte hc with rfl | hc
    · exact ha
    · exact hm.2 c hc

@[simp] theorem Memory.empty_wf : Memory.empty.wf := by simp [Memory.empty, Memory.wf]

/-- The buffer at reset is in the canonical form. -/
theorem State.reset_memory_wf : State.reset.hasher.buf.wf := Memory.empty_wf

@[simp] theorem Memory.readByte_empty (a : Nat) : Memory.empty.readByte a = none := rfl

/-! Several bytes -/

theorem writeBytesFrom_wf {m : Memory} {addr : Nat} (bs : List Byte) (hm : m.wf) (h : addr + bs.length ≤ 64) :
    (writeBytesFrom m addr bs).wf := by
  induction bs generalizing m addr with
  | nil => exact hm
  | cons b bs ih =>
    simp only [List.length_cons] at h
    exact ih (Memory.writeByte_wf b hm (by omega)) (by omega)

/-- The bytes of a store are read back at their own offsets, and every other offset reads as before. -/
theorem readByte_writeBytesFrom (m : Memory) (addr : Nat) (bs : List Byte) (a : Nat) :
    (writeBytesFrom m addr bs).readByte a =
      if addr ≤ a ∧ a < addr + bs.length then bs[a - addr]? else m.readByte a := by
  induction bs generalizing m addr with
  | nil => simp [writeBytesFrom]
  | cons b bs ih =>
    simp only [writeBytesFrom, ih, List.length_cons]
    by_cases h1 : a = addr
    · subst h1
      simp [Memory.readByte_writeByte_same]
    · rw [Memory.readByte_writeByte_other _ _ h1]
      by_cases h2 : addr + 1 ≤ a ∧ a < addr + 1 + bs.length
      · have : a - addr = (a - (addr + 1)) + 1 := by omega
        simp only [h2, and_self, if_true, this, List.getElem?_cons_succ]
        rw [if_pos (by omega)]
      · rw [if_neg h2, if_neg (by omega)]

/-- Everything writeBytes can do: inside the buffer it answers the stored bytes, outside it faults. -/
theorem writeBytes_eq (m : Memory) (addr : Nat) (bs : List Byte) :
    writeBytes m addr bs =
      if addr + bs.length ≤ 64 then .ok (writeBytesFrom m addr bs) else .error (.bufferOffsetOutOfRange addr bs.length) := rfl

theorem writeBytes_wf {m m' : Memory} {addr : Nat} {bs : List Byte} (hm : m.wf) (h : writeBytes m addr bs = .ok m') : m'.wf := by
  rw [writeBytes_eq] at h
  split at h
  · next hle => cases h; exact writeBytesFrom_wf bs hm hle
  · cases h

@[simp] theorem splitBytes_length {n : Nat} (v : BitVec (8 * n)) : (splitBytes v).length = n := by simp [splitBytes]

/-- Storing one byte value (the only use the block makes of MemWrite, R39). -/
theorem memWrite_byte (m : Memory) (addr : Nat) (b : Byte) :
    memWrite m addr 1 b = if addr < 64 then .ok (m.writeByte addr b) else .error (.bufferOffsetOutOfRange addr 1) := by
  have hb : splitBytes (n := 1) b = [b] := by
    simp [splitBytes]
  unfold memWrite
  rw [hb, writeBytes_eq]
  rfl

/-- Every store keeps the canonical form. -/
theorem memWrite_wf {m m' : Memory} {addr n : Nat} {v : BitVec (8 * n)} (hm : m.wf) (h : memWrite m addr n v = .ok m') : m'.wf :=
  writeBytes_wf hm h

/-- Everything the unchecked read can do: it answers the stored bytes exactly when all of them have a value. -/
theorem readBytesFrom_eq_ok {m : Memory} {addr n : Nat} {v : Vector Byte n} :
    readBytesFrom m addr n = .ok v ↔ ∀ (j : Nat) (hj : j < n), m.readByte (addr + j) = some v[j] := by
  induction n with
  | zero =>
    simp [readBytesFrom, Vector.eq_empty (xs := v)]
  | succ n ih =>
    unfold readBytesFrom
    constructor
    · intro h j hj
      cases hr : readBytesFrom m addr n with
      | error f => simp [hr] at h
      | ok w =>
        have hw := ih.1 hr
        simp only [hr] at h
        cases hb : m.readByte (addr + n) with
        | none => simp [hb] at h
        | some b =>
          simp only [hb, Except.ok.injEq] at h
          subst h
          rcases Nat.lt_or_ge j n with hjn | hjn
          · rw [hw j hjn, Vector.getElem_push_lt hjn]
          · obtain rfl : j = n := by omega
            simp [hb]
    · intro h
      have hr : readBytesFrom m addr n = .ok v.pop := ih.2 fun j hj => by
        rw [h j (by omega)]; simp
      have hb := h n (Nat.lt_succ_self n)
      simp only [hr, hb, Except.ok.injEq]
      exact Vector.push_pop_back v

/-- Everything readBytes can do: it answers the stored bytes exactly when the range exists and all of them have a value. -/
theorem readBytes_eq_ok {m : Memory} {addr n : Nat} {v : Vector Byte n} :
    readBytes m addr n = .ok v ↔ addr + n ≤ 64 ∧ ∀ (j : Nat) (hj : j < n), m.readByte (addr + j) = some v[j] := by
  unfold readBytes
  split
  · next h => simp [readBytesFrom_eq_ok, h]
  · next h => simp [h]

/-! A buffer given by its bytes -/

@[simp] theorem Memory.ofBytes_nil : Memory.ofBytes [] = [] := rfl

theorem Memory.ofBytesFrom_append (k : Nat) (xs ys : List Byte) :
    Memory.ofBytesFrom k (xs ++ ys) = Memory.ofBytesFrom k xs ++ Memory.ofBytesFrom (k + xs.length) ys := by
  induction xs generalizing k with
  | nil => simp [Memory.ofBytesFrom]
  | cons x xs ih => simp [Memory.ofBytesFrom, ih, Nat.add_assoc, Nat.add_comm 1]

theorem Memory.bytes_ofBytesFrom (k : Nat) (xs : List Byte) : Memory.bytes (Memory.ofBytesFrom k xs) = xs := by
  induction xs generalizing k with
  | nil => rfl
  | cons x xs ih => simpa [Memory.ofBytesFrom, Memory.bytes] using ih (k + 1)

@[simp] theorem Memory.bytes_ofBytes (xs : List Byte) : Memory.bytes (Memory.ofBytes xs) = xs := Memory.bytes_ofBytesFrom 0 xs

theorem Memory.offsets_ofBytesFrom (k : Nat) (xs : List Byte) :
    (Memory.ofBytesFrom k xs).map Prod.fst = List.range' k xs.length := by
  induction xs generalizing k with
  | nil => rfl
  | cons x xs ih => simp [Memory.ofBytesFrom, ih, List.range'_succ]

@[simp] theorem Memory.offsets_ofBytes (xs : List Byte) : (Memory.ofBytes xs).map Prod.fst = List.range xs.length := by
  rw [Memory.ofBytes, Memory.offsets_ofBytesFrom, List.range_eq_range']

theorem Memory.eq_ofBytesFrom {m : Memory} {k n : Nat} (h : m.map Prod.fst = List.range' k n) :
    m = Memory.ofBytesFrom k m.bytes := by
  induction m generalizing k n with
  | nil => rfl
  | cons c m ih =>
    cases n with
    | zero => simp at h
    | succ n =>
      rw [List.range'_succ, List.map_cons, List.cons.injEq] at h
      show c :: m = (k, c.2) :: Memory.ofBytesFrom (k + 1) (Memory.bytes m)
      rw [← ih h.2, ← h.1]

/-- A buffer whose stored offsets are 0 .. n-1 is the buffer of its bytes. -/
theorem Memory.eq_ofBytes {m : Memory} {n : Nat} (h : m.map Prod.fst = List.range n) : m = Memory.ofBytes m.bytes :=
  Memory.eq_ofBytesFrom (by rw [h, List.range_eq_range'])

theorem Memory.readByte_ofBytesFrom (k : Nat) (xs : List Byte) (a : Nat) :
    (Memory.ofBytesFrom k xs).readByte a = if k ≤ a then xs[a - k]? else none := by
  induction xs generalizing k with
  | nil => simp [Memory.ofBytesFrom, Memory.readByte]
  | cons x xs ih =>
    simp only [Memory.ofBytesFrom, Memory.readByte, ih]
    by_cases h : k = a
    · subst h; simp
    · rw [if_neg h]
      by_cases h2 : k ≤ a
      · have : a - k = (a - (k + 1)) + 1 := by omega
        rw [if_pos (by omega), if_pos h2, this, List.getElem?_cons_succ]
      · rw [if_neg (by omega), if_neg h2]

@[simp] theorem Memory.readByte_ofBytes (xs : List Byte) (a : Nat) : (Memory.ofBytes xs).readByte a = xs[a]? := by
  simp [Memory.ofBytes, Memory.readByte_ofBytesFrom]

theorem Memory.writeByte_ofBytesFrom_end (k : Nat) (xs : List Byte) (b : Byte) :
    (Memory.ofBytesFrom k xs).writeByte (k + xs.length) b = Memory.ofBytesFrom k (xs ++ [b]) := by
  induction xs generalizing k with
  | nil => simp [Memory.ofBytesFrom, Memory.writeByte]
  | cons x xs ih =>
    have := ih (k + 1)
    simp only [Memory.ofBytesFrom, Memory.writeByte, List.cons_append, List.length_cons]
    rw [if_neg (by omega), if_neg (by omega), ← this]
    congr 2
    omega

/-- Storing at the end of a buffer appends the byte. -/
theorem Memory.writeByte_ofBytes_end (xs : List Byte) (b : Byte) :
    (Memory.ofBytes xs).writeByte xs.length b = Memory.ofBytes (xs ++ [b]) := by
  simpa [Memory.ofBytes] using Memory.writeByte_ofBytesFrom_end 0 xs b

/-- Storing several bytes at the end of a buffer appends them. -/
theorem writeBytesFrom_ofBytes_end (xs ys : List Byte) :
    writeBytesFrom (Memory.ofBytes xs) xs.length ys = Memory.ofBytes (xs ++ ys) := by
  induction ys generalizing xs with
  | nil => simp [writeBytesFrom]
  | cons y ys ih =>
    have := ih (xs ++ [y])
    simp only [List.length_append, List.length_cons, List.length_nil, List.append_assoc, List.cons_append, List.nil_append] at this
    rw [writeBytesFrom, Memory.writeByte_ofBytes_end, ← this]

theorem Memory.ofBytes_wf {xs : List Byte} (h : xs.length ≤ 64) : (Memory.ofBytes xs).wf := by
  refine ⟨?_, fun c hc => ?_⟩
  · have : ((Memory.ofBytes xs).map Prod.fst).Pairwise (· < ·) := by simpa using List.pairwise_lt_range
    exact List.pairwise_map.1 this
  · have : c.1 ∈ (Memory.ofBytes xs).map Prod.fst := List.mem_map_of_mem hc
    rw [Memory.offsets_ofBytes, List.mem_range] at this
    exact Nat.lt_of_lt_of_le this h

end Sys2Proof.Machine
end

