-- ==== Sys2Proof/Laws/Message.lean ====
section
/-! SUPPORT. Whole blocks and leftover bytes of a message: how both change when bytes are appended
(spec/10_state.md R31, spec/40_commands.md R69). -/

namespace Sys2Proof.Machine

theorem leftover_length (m : List Byte) : (leftover m).length = m.length % 64 := by
  simp [leftover]; omega

theorem leftover_of_short {m : List Byte} (h : m.length < 64) : leftover m = m := by
  simp [leftover, Nat.div_eq_of_lt h]

theorem digestOver_of_short (H : Digest) {m : List Byte} (h : m.length < 64) : digestOver H m = H := by
  simp [digestOver, wholeBlocks, Nat.div_eq_of_lt h]

@[simp] theorem digestOver_nil (H : Digest) : digestOver H [] = H := rfl

@[simp] theorem leftover_nil : leftover [] = [] := rfl

/-- A block's bytes are the message's bytes at its place. -/
theorem wholeBlock_getElem (m : List Byte) (k j : Nat) (hj : j < 64) : (wholeBlock m k)[j] = m.getD (64 * k + j) 0 := by
  simp [wholeBlock]

/-- After a first block of 64 bytes, the k-th block of the rest is the next one. -/
theorem wholeBlock_append {x : List Byte} (hx : x.length = 64) (y : List Byte) (k : Nat) :
    wholeBlock (x ++ y) (k + 1) = wholeBlock y k := by
  ext j hj
  rw [wholeBlock_getElem _ _ _ hj, wholeBlock_getElem _ _ _ hj, List.getD_eq_getElem?_getD, List.getD_eq_getElem?_getD,
    List.getElem?_append_right (by omega)]
  congr 2
  congr 1
  omega

theorem wholeBlock_append_left {x : List Byte} (hx : x.length = 64) (y : List Byte) : wholeBlock (x ++ y) 0 = wholeBlock x 0 := by
  ext j hj
  rw [wholeBlock_getElem _ _ _ hj, wholeBlock_getElem _ _ _ hj, List.getD_eq_getElem?_getD, List.getD_eq_getElem?_getD,
    List.getElem?_append_left (by omega)]

/-- A message that starts with 64 bytes compresses them first. -/
theorem digestOver_append_block (H : Digest) {x : List Byte} (hx : x.length = 64) (y : List Byte) :
    digestOver H (x ++ y) = digestOver (compress H (wholeBlock x 0)) y := by
  have hl : (x ++ y).length / 64 = y.length / 64 + 1 := by rw [List.length_append, hx]; omega
  have hrest : (List.range (y.length / 64)).map (wholeBlock (x ++ y) ∘ Nat.succ) = (List.range (y.length / 64)).map (wholeBlock y) :=
    List.map_congr_left fun k _ => wholeBlock_append hx y k
  simp only [digestOver, wholeBlocks, hl, List.range_succ_eq_map, List.map_cons, List.map_map, List.foldl_cons,
    wholeBlock_append_left hx y, hrest]

theorem leftover_append_block {x : List Byte} (hx : x.length = 64) (y : List Byte) : leftover (x ++ y) = leftover y := by
  have hl : (x ++ y).length / 64 = y.length / 64 + 1 := by rw [List.length_append, hx]; omega
  have hd : 64 * (y.length / 64 + 1) = x.length + 64 * (y.length / 64) := by omega
  rw [leftover, hl, leftover, hd, List.drop_length_add_append]

/-- Bytes appended to a message continue from its digest and its leftover bytes. -/
theorem digestOver_append (H : Digest) (x y : List Byte) :
    digestOver H (x ++ y) = digestOver (digestOver H x) (leftover x ++ y) := by
  induction hn : x.length / 64 generalizing H x with
  | zero =>
    have h : x.length < 64 := by omega
    rw [digestOver_of_short H h, leftover_of_short h]
  | succ n ih =>
    have h : (x.take 64).length = 64 := by simp; omega
    have hx : x.take 64 ++ x.drop 64 = x := List.take_append_drop 64 x
    have key := ih (compress H (wholeBlock (x.take 64) 0)) (x.drop 64) (by simp; omega)
    rw [← hx, List.append_assoc, digestOver_append_block H h, digestOver_append_block H h, leftover_append_block h, key]

theorem leftover_append (x y : List Byte) : leftover (x ++ y) = leftover (leftover x ++ y) := by
  induction hn : x.length / 64 generalizing x with
  | zero =>
    have h : x.length < 64 := by omega
    rw [leftover_of_short h]
  | succ n ih =>
    have h : (x.take 64).length = 64 := by simp; omega
    have hx : x.take 64 ++ x.drop 64 = x := List.take_append_drop 64 x
    have key := ih (x.drop 64) (by simp; omega)
    rw [← hx, List.append_assoc, leftover_append_block h, leftover_append_block h, key]

/-- A message of whole blocks leaves nothing over. -/
theorem leftover_eq_nil {m : List Byte} (h : m.length % 64 = 0) : leftover m = [] :=
  List.eq_nil_of_length_eq_zero (by rw [leftover_length, h])

@[simp] theorem bitCount_nil : bitCount [] = 0 := rfl

theorem bitCount_append (x y : List Byte) : bitCount (x ++ y) = bitCount x + BitVec.ofNat 64 (8 * y.length) := by
  simp [bitCount, Nat.mul_add, BitVec.ofNat_add]

/-! The padding's lengths (R79, R83, R85) -/

@[simp] theorem zeros_length (n : Nat) : (zeros n).length = n := by simp [zeros]

theorem padLen_pos (L : Nat) (h : L < 64) : 0 < padLen L := by unfold padLen; split <;> omega

theorem pad_length {L : Nat} (h : L < 64) : (pad L).length = padLen L := by
  have := padLen_pos L h
  simp [pad]; omega

@[simp] theorem be64bytes_length (v : Count) : (be64bytes v).length = 8 := by simp [be64bytes]

@[simp] theorem lengthField_length (v : Count) : (lengthField v).length = 8 := be64bytes_length v

/-- The fill level, the padding and the length field complete one block or two (R83). -/
theorem padded_total {L : Nat} (h : L < 64) : L + padLen L + 8 = if L < 56 then 64 else 128 := by
  unfold padLen; split <;> omega

/-- The padded message is whole blocks (R85). -/
theorem paddedMessage_length (m : List Byte) : (paddedMessage m).length % 64 = 0 := by
  have h : m.length % 64 < 64 := Nat.mod_lt _ (by omega)
  have ht := padded_total h
  simp only [paddedMessage, List.length_append, pad_length h, lengthField_length]
  split at ht <;> omega

end Sys2Proof.Machine
end

