-- ==== Sys2Proof/Laws/Decode.lean ====
section
/-! SUPPORT. The decoder and the encoder: what each verdict means, the length field's round trip
(spec/30_encoding.md R54 to R60). -/

namespace Sys2Proof

open Sys2Proof.Machine

@[simp] theorem decode_nil : decode [] = .done := rfl

theorem decode_init (rest : List Byte) : decode (0x01#8 :: rest) = .cmd .init 1 := rfl

theorem decode_finalize (rest : List Byte) : decode (0x03#8 :: rest) = .cmd .finalize 1 := rfl

theorem decode_update (rest : List Byte) : decode (0x02#8 :: rest) = decodePayload .update (0x02#8 :: rest) := rfl

theorem decode_hash (rest : List Byte) : decode (0x04#8 :: rest) = decodePayload .hash (0x04#8 :: rest) := rfl

theorem decode_illegal {op : Byte} (rest : List Byte) (h1 : op ≠ 0x01#8) (h2 : op ≠ 0x02#8) (h3 : op ≠ 0x03#8)
    (h4 : op ≠ 0x04#8) : decode (op :: rest) = .illegal op := by
  simp [decode, h1, h2, h3, h4]

/-- Everything the format-B decoder can do: it waits for the header, then for the payload, then answers the command. -/
theorem decodePayload_cases (mk : List Byte → Instr) (s : List Byte) :
    (s.length < headerBytes + operandLength s ∧ decodePayload mk s = .incomplete) ∨
    (s.length < headerBytes ∧ decodePayload mk s = .incomplete) ∨
    (headerBytes + operandLength s ≤ s.length ∧
      decodePayload mk s = .cmd (mk (operandData s)) (headerBytes + operandLength s)) := by
  unfold decodePayload
  split
  · next h => exact .inr (.inl ⟨h, rfl⟩)
  · split
    · next h => exact .inl ⟨h, rfl⟩
    · next h => exact .inr (.inr ⟨by omega, rfl⟩)

@[simp] theorem encode_init : encode .init = [0x01#8] := rfl

@[simp] theorem encode_finalize : encode .finalize = [0x03#8] := rfl

@[simp] theorem encode_update (data : List Byte) :
    encode (.update data) = 0x02#8 :: (be64bytes (BitVec.ofNat 64 data.length) ++ data) := rfl

@[simp] theorem encode_hash (data : List Byte) :
    encode (.hash data) = 0x04#8 :: (be64bytes (BitVec.ofNat 64 data.length) ++ data) := rfl

namespace Machine

/-- One more byte below the bytes already joined. -/
theorem shift_join_byte {w : Nat} (v : BitVec w) (m : Nat) :
    ((v >>> (8 * (m + 1))) <<< 8) ||| (v.extractLsb' (8 * m) 8).setWidth w = v >>> (8 * m) := by
  ext i hi
  by_cases h : i < 8
  · simp [h]
  · have hidx : 8 * (m + 1) + (i - 8) = 8 * m + i := by omega
    simp [h, hidx]

/-- Joining the first k bytes of a value gives its top bytes. -/
theorem joined_prefix {n : Nat} (v : BitVec (8 * n)) (k : Nat) (hk : k ≤ n) :
    ((List.range k).map fun j => v.extractLsb' (8 * (n - j) - 8) 8).foldl
      (fun (u : BitVec (8 * n)) b => (u <<< 8) ||| b.setWidth (8 * n)) 0 = v >>> (8 * (n - k)) := by
  induction k with
  | zero =>
    ext i hi
    simp
  | succ k ih =>
    have h1 : n - k = (n - (k + 1)) + 1 := by omega
    have h2 : 8 * ((n - (k + 1)) + 1) - 8 = 8 * (n - (k + 1)) := by omega
    rw [List.range_succ, List.map_append, List.foldl_append, ih (by omega)]
    simp only [List.map_cons, List.map_nil, List.foldl_cons, List.foldl_nil]
    rw [h1, h2, shift_join_byte]

/-- A value split into its bytes and joined again is the value (R38, R39). -/
theorem joinBytes_splitBytes {n : Nat} (v : BitVec (8 * n)) : joinBytes (n := n) (splitBytes v) = v := by
  have h := joined_prefix v n (Nat.le_refl n)
  rw [Nat.sub_self, Nat.mul_zero, BitVec.ushiftRight_zero] at h
  exact h

/-- The eight length bytes read back as the value they spell (R11, R56). -/
theorem be64_be64bytes (v : Count) : be64 (be64bytes v) = v := joinBytes_splitBytes (n := 8) v

/-- The length field of an encoded payload is the payload's length. -/
theorem operandLength_encoded (op : Byte) {data : List Byte} (rest : List Byte) (h : data.length < 2 ^ 64) :
    operandLength (op :: (be64bytes (BitVec.ofNat 64 data.length) ++ data ++ rest)) = data.length := by
  have h8 : (be64bytes (BitVec.ofNat 64 data.length) ++ data ++ rest).take 8 = be64bytes (BitVec.ofNat 64 data.length) := by
    rw [List.append_assoc, ← be64bytes_length (BitVec.ofNat 64 data.length), List.take_left]
  rw [operandLength, List.drop_succ_cons, List.drop_zero, h8, be64_be64bytes, BitVec.toNat_ofNat, Nat.mod_eq_of_lt h]

end Machine

end Sys2Proof
end

