-- ==== Sys2Proof/Laws/PerInstr.lean ====
section
/-! SUPPORT. Statements about every command as syntax, one lemma per constructor. -/

namespace Sys2Proof.Laws.EncodeShape

/-- A command's encoding starts with its opcode and is as long as its format says (spec/30_encoding.md R54, R55, R59). -/
def Statement (i : Instr) : Prop :=
  (encode i).head? = some i.opcode ∧ (encode i).length = commandLength i

theorem init : Statement .init := ⟨rfl, rfl⟩

theorem update (data : List Byte) : Statement (.update data) := by
  refine ⟨rfl, ?_⟩
  simp [commandLength, Instr.format, Instr.payload, Machine.headerBytes]
  omega

theorem finalize : Statement .finalize := ⟨rfl, rfl⟩

theorem hash (data : List Byte) : Statement (.hash data) := by
  refine ⟨rfl, ?_⟩
  simp [commandLength, Instr.format, Instr.payload, Machine.headerBytes]
  omega

end Sys2Proof.Laws.EncodeShape
end

