-- ==== Sys2Proof/Laws/Sequencer.lean ====
section
/-! SUPPORT. What each function of the sequencer does on a context whose buffer and fill level agree, said once
(spec/40_commands.md R68, R69, R70, R73, R75). -/

namespace Sys2Proof.Machine

/-! A buffered context -/

theorem Hasher.Buffered.buf_eq {h : Hasher} (hb : h.Buffered) : h.buf = Memory.ofBytes h.buf.bytes :=
  Memory.eq_ofBytes hb.offsets

theorem Hasher.Buffered.length {h : Hasher} (hb : h.Buffered) : h.buf.bytes.length = h.fill := by
  have := congrArg List.length hb.offsets
  simpa [Memory.bytes] using this

/-- A context whose buffer holds fewer than 64 bytes at offsets 0, 1, ... and whose fill level is their number is buffered. -/
theorem Hasher.buffered_of_bytes {h : Hasher} {xs : List Byte} (hbuf : h.buf = Memory.ofBytes xs) (hfill : h.fill = xs.length)
    (hlt : xs.length < 64) : h.Buffered :=
  ⟨by omega, by rw [hbuf, Memory.offsets_ofBytes, hfill]⟩

theorem Hasher.reset_buffered : Hasher.reset.Buffered := ⟨by decide, rfl⟩

theorem Hasher.Buffered.beginUpdate {h : Hasher} (hb : h.Buffered) : h.beginUpdate.Buffered := ⟨hb.1, hb.2⟩

theorem Hasher.Buffered.beginFinalize {h : Hasher} (hb : h.Buffered) : h.beginFinalize.Buffered := ⟨hb.1, hb.2⟩

theorem Hasher.Buffered.countBits {h : Hasher} (hb : h.Buffered) (n : Nat) : (countBits h n).Buffered := ⟨hb.1, hb.2⟩

/-! Reading a full buffer, and one byte -/

theorem readBytes_full {xs : List Byte} (h : xs.length = 64) : readBytes (Memory.ofBytes xs) 0 64 = .ok (wholeBlock xs 0) := by
  refine readBytes_eq_ok.2 ⟨by omega, fun j hj => ?_⟩
  have hlt : j < xs.length := by omega
  rw [wholeBlock_getElem _ _ _ hj]
  simp [hlt]

/-- What AbsorbByte does (R70): it buffers the byte, or completes a block and flushes it. -/
theorem absorbByte_eq {h : Hasher} (hb : h.Buffered) (b : Byte) :
    absorbByte h b = .ok
      { h with
        H := digestOver h.H (h.buf.bytes ++ [b])
        buf := Memory.ofBytes (leftover (h.buf.bytes ++ [b]))
        fill := (h.fill + 1) % 64 } := by
  have hlen := hb.length
  have hw : h.buf.writeByte h.fill b = Memory.ofBytes (h.buf.bytes ++ [b]) := by
    conv_lhs => rw [hb.buf_eq, ← hlen]
    exact Memory.writeByte_ofBytes_end _ _
  unfold absorbByte
  simp only [memWrite_byte, if_pos hb.fill_lt, hw]
  by_cases hf : h.fill + 1 = 64
  · have h64 : (h.buf.bytes ++ [b]).length = 64 := by simp; omega
    have hd := digestOver_append_block h.H h64 []
    have hl := leftover_append_block h64 []
    rw [List.append_nil, digestOver_nil] at hd
    rw [List.append_nil, leftover_nil] at hl
    have hm : (h.fill + 1) % 64 = 0 := by omega
    rw [if_pos hf]
    unfold flush
    simp only [readBytes_full h64]
    rw [hd, hl, hm]
    rfl
  · have hlt : (h.buf.bytes ++ [b]).length < 64 := by have := hb.fill_lt; simp; omega
    have hm : (h.fill + 1) % 64 = h.fill + 1 := Nat.mod_eq_of_lt (by have := hb.fill_lt; omega)
    rw [if_neg hf, digestOver_of_short _ hlt, leftover_of_short hlt, hm]

/-- What Absorb does (R69): the complete blocks of the buffered and new bytes are compressed in order and the rest stay buffered. -/
theorem absorb_eq {h : Hasher} (hb : h.Buffered) (data : List Byte) :
    absorb h data = .ok
      { h with
        H := digestOver h.H (h.buf.bytes ++ data)
        buf := Memory.ofBytes (leftover (h.buf.bytes ++ data))
        fill := (h.fill + data.length) % 64 } := by
  induction data generalizing h with
  | nil =>
    have hlen := hb.length
    have hlt : h.buf.bytes.length < 64 := by have := hb.fill_lt; omega
    rw [absorb, List.append_nil, digestOver_of_short _ hlt, leftover_of_short hlt, ← hb.buf_eq, List.length_nil, Nat.add_zero,
      Nat.mod_eq_of_lt hb.fill_lt]
  | cons b bs ih =>
    have hstep := absorbByte_eq hb b
    have hb' : Hasher.Buffered
        { h with
          H := digestOver h.H (h.buf.bytes ++ [b])
          buf := Memory.ofBytes (leftover (h.buf.bytes ++ [b]))
          fill := (h.fill + 1) % 64 } :=
      Hasher.buffered_of_bytes rfl (by simp [leftover_length, hb.length]) (by rw [leftover_length]; omega)
    have hassoc : h.buf.bytes ++ b :: bs = (h.buf.bytes ++ [b]) ++ bs := by simp
    rw [absorb, hstep]
    simp only [ih hb', Memory.bytes_ofBytes]
    rw [hassoc, digestOver_append h.H (h.buf.bytes ++ [b]) bs, leftover_append (h.buf.bytes ++ [b]) bs]
    have hmod : ((h.fill + 1) % 64 + bs.length) % 64 = (h.fill + (b :: bs).length) % 64 := by rw [List.length_cons]; omega
    rw [hmod]

/-- What the update path does (R68). -/
theorem updatePath_eq {h : Hasher} (hb : h.Buffered) (data : List Byte) :
    updatePath h data = .ok
      { H := digestOver h.H (h.buf.bytes ++ data)
        buf := Memory.ofBytes (leftover (h.buf.bytes ++ data))
        fill := (h.fill + data.length) % 64
        bitlen := h.bitlen + BitVec.ofNat 64 (8 * data.length)
        phase := .accumulating } := by
  rw [updatePath, absorb_eq (hb.countBits data.length).beginUpdate]
  rfl

/-- The update path keeps the buffer and the fill level in agreement. -/
theorem updatePath_buffered {h h' : Hasher} {data : List Byte} (hb : h.Buffered) (he : updatePath h data = .ok h') : h'.Buffered := by
  rw [updatePath_eq hb] at he
  cases he
  exact Hasher.buffered_of_bytes rfl (by simp [leftover_length, hb.length]) (by rw [leftover_length]; omega)

/-- What the finalizer's two appends do (R73, R82, R83): everything buffered, the padding and the length field are whole blocks. -/
theorem padPath_eq {h : Hasher} (hb : h.Buffered) :
    padPath h = .ok
      { H := digestOver h.H (h.buf.bytes ++ pad h.fill ++ lengthField h.bitlen)
        buf := Memory.empty
        fill := 0
        bitlen := h.bitlen + BitVec.ofNat 64 (8 * padLen h.fill) + 64
        phase := .accumulating } := by
  have hlt := hb.fill_lt
  have hlen := hb.length
  have ht := padded_total hlt
  have hz : (h.buf.bytes ++ pad h.fill ++ lengthField h.bitlen).length % 64 = 0 := by
    simp only [List.length_append, pad_length hlt, lengthField_length, hlen]
    split at ht <;> omega
  have h1 : updatePath h.beginFinalize (pad h.fill) = .ok
      { H := digestOver h.H (h.buf.bytes ++ pad h.fill)
        buf := Memory.ofBytes (leftover (h.buf.bytes ++ pad h.fill))
        fill := (h.fill + padLen h.fill) % 64
        bitlen := h.bitlen + BitVec.ofNat 64 (8 * padLen h.fill)
        phase := .accumulating } := by
    rw [updatePath_eq hb.beginFinalize, pad_length hlt]
    rfl
  have hf : ((h.fill + padLen h.fill) % 64 + 8) % 64 = 0 := by split at ht <;> omega
  simp only [padPath, h1, updatePath_eq (updatePath_buffered hb.beginFinalize h1), Memory.bytes_ofBytes, lengthField_length]
  rw [← digestOver_append, ← leftover_append, leftover_eq_nil hz, hf]
  rfl

/-- What Finalize does (R73). -/
theorem finalizeHasher_eq {h : Hasher} (hb : h.Buffered) :
    finalizeHasher h =
      .ok (serialize (digestOver h.H (h.buf.bytes ++ pad h.fill ++ lengthField h.bitlen)), Hasher.reset) := by
  rw [finalizeHasher, padPath_eq hb]

/-! A context and the message it holds (R31) -/

theorem Hasher.Holds.buffered {h : Hasher} {m : List Byte} (hm : h.Holds m) : h.Buffered :=
  Hasher.buffered_of_bytes hm.buf (by rw [leftover_length, hm.fill]) (by rw [leftover_length]; omega)

theorem Hasher.reset_holds_nil : Hasher.reset.Holds [] := ⟨rfl, rfl, rfl, rfl⟩

/-- Finalizing a context that holds a message gives that message's response. -/
theorem finalizeHasher_of_holds {h : Hasher} {m : List Byte} (hm : h.Holds m) : finalizeHasher h = .ok (sha256 m, Hasher.reset) := by
  rw [finalizeHasher_eq hm.buffered, hm.H, hm.buf, hm.fill, hm.bitlen, Memory.bytes_ofBytes, sha256, paddedMessage,
    List.append_assoc, List.append_assoc, ← digestOver_append]

end Sys2Proof.Machine
end

