-- ==== Sys2Proof/Laws/Step.lean ====
section
/-! SUPPORT. What a command and a step can do, said once: one inversion lemma each (spec/40_commands.md R66 to R78). -/

namespace Sys2Proof.Machine

/-! Commands -/

theorem exec_init (s : State) : exec .init s = .next (resetInstance s) := rfl

theorem exec_update_of_ok {s : State} {data : List Byte} {h : Hasher} (he : updatePath s.hasher data = .ok h) :
    exec (.update data) s = .next { s with hasher := h } := by
  simp [exec, execUpdate, he]

theorem exec_finalize_of_ok {s : State} {out : List Byte} {h : Hasher} (he : finalizeHasher s.hasher = .ok (out, h)) :
    exec .finalize s = .next (emit out { s with hasher := h }) := by
  simp [exec, execFinalize, he]

theorem exec_hash_of_ok {s : State} {data out : List Byte} (he : hashMessage data = .ok out) :
    exec (.hash data) s = .next (emit out s) := by
  simp [exec, execHash, he]

/-- Everything a command that answers a next state can have done. -/
theorem exec_eq_next {i : Instr} {s t : State} (h : exec i s = .next t) :
    (i = .init ∧ t = resetInstance s) ∨
    (∃ data h', i = .update data ∧ updatePath s.hasher data = .ok h' ∧ t = { s with hasher := h' }) ∨
    (∃ out h', i = .finalize ∧ finalizeHasher s.hasher = .ok (out, h') ∧ t = emit out { s with hasher := h' }) ∨
    (∃ data out, i = .hash data ∧ hashMessage data = .ok out ∧ t = emit out s) := by
  cases i with
  | init => exact .inl ⟨rfl, by simpa [exec, execInit] using h.symm⟩
  | update data =>
    simp only [exec, execUpdate] at h
    split at h
    · next h' he => exact .inr (.inl ⟨data, h', rfl, he, by simpa using h.symm⟩)
    · cases h
  | finalize =>
    simp only [exec, execFinalize] at h
    split at h
    · next out h' he => exact .inr (.inr (.inl ⟨out, h', rfl, he, by simpa using h.symm⟩))
    · cases h
  | hash data =>
    simp only [exec, execHash] at h
    split at h
    · next out he => exact .inr (.inr (.inr ⟨data, out, rfl, he, by simpa using h.symm⟩))
    · cases h

/-- No command refuses: the refusal outcome is the decoder's alone (R106). -/
theorem exec_ne_refused (i : Instr) (s : State) (r : Refusal) : exec i s ≠ .refused r := by
  cases i with
  | init => simp [exec, execInit]
  | update data => simp only [exec, execUpdate]; split <;> simp
  | finalize => simp only [exec, execFinalize]; split <;> simp
  | hash data => simp only [exec, execHash]; split <;> simp

/-- What no command touches: the command stream, the command pointer and the refusal mark (R30, R33, R59). -/
theorem exec_frame {i : Instr} {s t : State} (h : exec i s = .next t) :
    t.stream = s.stream ∧ t.cp = s.cp ∧ t.refused = s.refused ∧ t.recorded = s.recorded := by
  rcases exec_eq_next h with ⟨_, rfl⟩ | ⟨_, _, _, _, rfl⟩ | ⟨_, _, _, _, rfl⟩ | ⟨_, _, _, _, rfl⟩ <;> simp

/-! The step -/

theorem step_of_refused {s : State} (h : s.refused = true) : step s = .refused (.stopped s.recorded) := by simp [step, h]

theorem step_of_cmd {s : State} {i : Instr} {n : Nat} (h : s.refused = false) (hd : decode (remaining s) = .cmd i n) :
    step s = advance n (exec i s) := by simp [step, h, hd]

theorem step_of_done {s : State} (h : s.refused = false) (hd : decode (remaining s) = .done) : step s = .fault .idle := by
  simp [step, h, hd]

theorem step_of_incomplete {s : State} (h : s.refused = false) (hd : decode (remaining s) = .incomplete) :
    step s = .fault .held := by simp [step, h, hd]

theorem step_of_illegal {s : State} {op : Byte} (h : s.refused = false) (hd : decode (remaining s) = .illegal op) :
    step s = .next (raiseRefuse op s) := by simp [step, h, hd]

/-- Everything a step that answers a next state can have done: a whole command and the pointer's move, or taking a refusal. -/
theorem step_eq_next {s t : State} (h : step s = .next t) :
    s.refused = false ∧
    ((∃ i n u, decode (remaining s) = .cmd i n ∧ exec i s = .next u ∧ t = { u with cp := u.cp + n }) ∨
     (∃ op, decode (remaining s) = .illegal op ∧ t = raiseRefuse op s)) := by
  cases hr : s.refused with
  | true => rw [step_of_refused hr] at h; cases h
  | false =>
    refine ⟨rfl, ?_⟩
    cases hd : decode (remaining s) with
    | done => rw [step_of_done hr hd] at h; cases h
    | incomplete => rw [step_of_incomplete hr hd] at h; cases h
    | illegal op =>
      rw [step_of_illegal hr hd] at h
      exact .inr ⟨op, rfl, by simpa using h.symm⟩
    | cmd i n =>
      rw [step_of_cmd hr hd] at h
      obtain ⟨u, hu, ht⟩ := advance_eq_next h
      exact .inl ⟨i, n, u, rfl, hu, ht⟩

end Sys2Proof.Machine
end

