-- ==== Sys2Proof/Laws/Transform.lean ====
section
/-! SUPPORT. The schedule expander and the serializer: what later entries leave alone, and lengths
(spec/42_transform.md R98, spec/41_padding_serializer.md R86). -/

namespace Sys2Proof.Machine

/-- Expanding further leaves the words already computed as they are (R98: any evaluation order gives the same schedule). -/
theorem scheduleWords_stable (B : Block) (k j i : Nat) (hi : i < 16 + k) :
    (scheduleWords B (k + j))[i] = (scheduleWords B k)[i] := by
  induction j with
  | zero => rfl
  | succ j ih =>
    have hlt : i < 16 + (k + j) := by omega
    rw [← ih]
    exact Vector.getElem_push_lt hlt

/-- The word the recurrence adds (R98). -/
theorem scheduleWords_last (B : Block) (k : Nat) :
    (scheduleWords B (k + 1))[16 + k] =
      (scheduleWords B k)[k] + smallSigma0 (scheduleWords B k)[k + 1] + (scheduleWords B k)[k + 9] +
        smallSigma1 (scheduleWords B k)[k + 14] :=
  Vector.getElem_push_eq ..

theorem blockWords_getElem (B : Block) (t : Nat) (ht : t < 16) :
    (blockWords B)[t] = be32 B[4 * t] B[4 * t + 1] B[4 * t + 2] B[4 * t + 3] := by
  simp [blockWords]

@[simp] theorem serializeWord_length (w : Word) : (serializeWord w).length = 8 := rfl

theorem flatMap_length_of_const {α β : Type} (f : α → List β) (k : Nat) (hf : ∀ x, (f x).length = k) (l : List α) :
    (l.flatMap f).length = k * l.length := by
  induction l with
  | nil => rfl
  | cons x l ih => rw [List.flatMap_cons, List.length_append, hf, ih, List.length_cons, Nat.mul_succ, Nat.add_comm]

/-- Every response is 64 bytes (R62, R88). -/
@[simp] theorem serialize_length (H : Digest) : (serialize H).length = 64 := by
  rw [serialize, flatMap_length_of_const _ 8 serializeWord_length]
  simp

theorem isHexCode_hexChar (v : BitVec 4) : isHexCode (hexChar v) = true := by
  revert v; decide

/-- Every response byte is one of the sixteen codes (R88). -/
theorem serialize_hex (H : Digest) : ∀ b ∈ serialize H, isHexCode b = true := by
  intro b hb
  obtain ⟨w, -, hw⟩ := List.mem_flatMap.1 hb
  obtain ⟨d, -, rfl⟩ := List.mem_map.1 hw
  exact isHexCode_hexChar _

end Sys2Proof.Machine
end

