-- ==== Sys2Proof/Tests/Slice0.lean ====
section
/-! SUPPORT. The model's own tests. Expected results are the spec's: the vectors of spec/95_test_vectors.md, or words written out from
the encoding tables of spec/30_encoding.md. Then a witness for each statement that has hypotheses. A digest is evaluated by the kernel
alone (decide +kernel). -/

namespace Sys2Proof.Tests

open Sys2Proof.Machine

/-! Well-formedness: one ill-formed command for each check -/

theorem test_wellFormed_refuses_long_update : ¬ (Instr.update (List.replicate (2 ^ 64) 0)).WellFormed := by
  rw [Instr.WellFormed, Instr.payload, List.length_replicate]
  exact Nat.lt_irrefl _

theorem test_wellFormed_refuses_long_hash : ¬ (Instr.hash (List.replicate (2 ^ 64) 0)).WellFormed := by
  rw [Instr.WellFormed, Instr.payload, List.length_replicate]
  exact Nat.lt_irrefl _

theorem test_wellFormed_accepts_longest : (Instr.update (List.replicate (2 ^ 64 - 1) 0)).WellFormed := by
  rw [Instr.WellFormed, Instr.payload, List.length_replicate]
  exact Nat.sub_one_lt (by decide)

theorem test_wellFormed_accepts : Instr.init.WellFormed ∧ Instr.finalize.WellFormed ∧ (Instr.hash [0x61]).WellFormed := by decide

/-! Decoding: words from R54, R55, R57 and the streams of V2.12 -/

theorem test_decode_init : decode [0x01] = .cmd .init 1 := by decide

theorem test_decode_update :
    decode [0x02, 0, 0, 0, 0, 0, 0, 0, 3, 0x61, 0x62, 0x63, 0x03] = .cmd (.update [0x61, 0x62, 0x63]) 12 := by decide

theorem test_decode_update_payload_is_data : decode [0x02, 0, 0, 0, 0, 0, 0, 0, 1, 0x03, 0x03] = .cmd (.update [0x03]) 10 := by decide

theorem test_decode_finalize : decode [0x03, 0x03] = .cmd .finalize 1 := by decide

theorem test_decode_hash : decode [0x04, 0, 0, 0, 0, 0, 0, 0, 3, 0x61, 0x62, 0x63] = .cmd (.hash [0x61, 0x62, 0x63]) 12 := by decide

theorem test_decode_length_is_big_endian : operandLength [0x02, 0, 0, 0, 0, 0, 0x7a, 0x12, 0x00] = 8000000 := by decide

theorem test_decode_illegal : decode [0x00] = .illegal 0x00 ∧ decode [0x05] = .illegal 0x05 ∧ decode [0xff, 0x03] = .illegal 0xff := by
  decide

theorem test_decode_incomplete :
    decode [0x02, 0, 0, 0] = .incomplete ∧ decode [0x02, 0, 0, 0, 0, 0, 0, 0, 5, 0x61, 0x62] = .incomplete ∧
    decode [0x04, 0, 0, 0, 0, 0, 0, 0, 2, 0x61] = .incomplete := by decide

theorem test_encode_abc : encode (.update [0x61, 0x62, 0x63]) = [0x02, 0, 0, 0, 0, 0, 0, 0, 3, 0x61, 0x62, 0x63] := by decide

theorem test_table_words :
    decodeTableWord 8 0x01 = some .init ∧ decodeTableWord 8 0x02 = some (.update []) ∧ decodeTableWord 8 0x03 = some .finalize ∧
    decodeTableWord 8 0x04 = some (.hash []) ∧ decodeTableWord 8 0x05 = none ∧
    decodeTableWord 72 (0x02 + 2 * 2 ^ 64) = some (.update [0, 0]) := by decide

/-! The transform: V2.1, V2.2-1, V2.3-2, V2.4 -/

theorem test_sigmas :
    smallSigma0 0x12345678 = 0xe7fce6ee ∧ smallSigma1 0x12345678 = 0xa1f78649 ∧ bigSigma0 0x12345678 = 0x66146474 ∧
    bigSigma1 0x12345678 = 0x3561abda ∧ rotr 0x80000001 1 = 0xc0000000 := by decide

theorem test_ch_maj :
    ch 0x510e527f 0x9b05688c 0x1f83d9ab = 0x1f85c98c ∧ maj 0x6a09e667 0xbb67ae85 0x3c6ef372 = 0x3a6fe667 := by decide

/-- The padded "abc" block of V2.2-1. -/
def abcBlock : Block := wholeBlock ([0x61, 0x62, 0x63, 0x80] ++ zeros 59 ++ [0x18]) 0

theorem test_schedule :
    (expand abcBlock)[0] = 0x61626380 ∧ (expand abcBlock)[15] = 0x00000018 ∧ (expand abcBlock)[16] = 0x61626380 ∧
    (expand abcBlock)[20] = 0x3e9d7b78 ∧ (expand abcBlock)[63] = 0x12b1edeb := by decide +kernel

theorem test_round_zero :
    roundT1 0x428a2f98 0x61626380 (WorkVars.ofDigest IV) = 0x54da50e8 ∧ roundT2 (WorkVars.ofDigest IV) = 0x08909ae5 ∧
    compressionRound K[0] (expand abcBlock)[0] (WorkVars.ofDigest IV) =
      ⟨0x5d6aebcd, 0x6a09e667, 0xbb67ae85, 0x3c6ef372, 0xfa2a4622, 0x510e527f, 0x9b05688c, 0x1f83d9ab⟩ := by decide +kernel

theorem test_compress_zero_block :
    compress IV (wholeBlock (zeros 64) 0) =
      #v[0xda5698be, 0x17b9b469, 0x62335799, 0x779fbeca, 0x8ce5d491, 0xc0d26243, 0xbafef9ea, 0x1837a9d8] := by decide +kernel

/-! Padding and serializer: V2.5, V2.6 -/

theorem test_padLen : padLen 0 = 56 ∧ padLen 55 = 1 ∧ padLen 56 = 64 ∧ padLen 63 = 57 := by decide

theorem test_lengthField : lengthField 440 = [0, 0, 0, 0, 0, 0, 0x01, 0xb8] ∧
    lengthField 0xfffffffffffffff8 = [0xff, 0xff, 0xff, 0xff, 0xff, 0xff, 0xff, 0xf8] := by decide

theorem test_serialize :
    serialize #v[0x00635e66, 0x0000000a, 0xabcdef01, 0x10000000, 0x00000001, 0x00000002, 0x00000003, 0x0000000f] =
      asciiBytes "00635e660000000aabcdef01100000000000000100000002000000030000000f" := by decide +kernel

/-! The pending buffer: R40, and the canonical form -/

theorem test_memRead_word :
    memRead (Memory.ofBytes [0x61, 0x62, 0x63, 0x80]) 0 4 = .ok 0x61626380#32 := by decide +kernel

theorem test_memory_form :
    (Memory.writeByte (Memory.writeByte [] 5 0x61) 2 0x62) = [(2, 0x62), (5, 0x61)] ∧
    ¬ Memory.wf [(5, 0x61), (2, 0x62)] ∧ ¬ Memory.wf [(64, 0x61)] ∧ Memory.wf [(0, 0x61), (63, 0x62)] := by decide

/-! Commands: V2.8 to V2.11 -/

/-- An instance that has taken in these bytes, fewer than 64, since its last reset. -/
def midMessage (xs : List Byte) : State :=
  { State.reset with
    hasher := { H := IV, buf := Memory.ofBytes xs, fill := xs.length, bitlen := BitVec.ofNat 64 (8 * xs.length), phase := .accumulating } }

theorem test_init : nextState (exec .init (midMessage [0x61, 0x62, 0x63])) = some State.reset := by decide

theorem test_update_abc : nextState (exec (.update [0x61, 0x62, 0x63]) State.reset) = some (midMessage [0x61, 0x62, 0x63]) := by
  decide +kernel

theorem test_update_fills_block :
    (nextState (exec (.update (repeatByte 0x61 61)) (midMessage [0x61, 0x62, 0x63]))).map (·.hasher) =
      some { H := #v[0xea3d2a70, 0x89989d1e, 0xa2876ba9, 0x1a144a32, 0x41a41a31, 0xc4b3f747, 0x9ab45ec1, 0x5fe7acee]
             buf := [], fill := 0, bitlen := 512, phase := .accumulating } := by decide +kernel

theorem test_finalize_fresh :
    nextState (exec .finalize State.reset) =
      some { State.reset with resp := asciiBytes "e3b0c44298fc1c149afbf4c8996fb92427ae41e4649b934ca495991b7852b855" } := by
  decide +kernel

theorem test_finalize_two_blocks :
    (nextState (exec .finalize (midMessage (repeatByte 0x61 56)))).map (·.resp) =
      some (asciiBytes "b35439a4ac6f0948b6d6f9e3c6af0f5f590ce20f1bde7090ef7970686ec6738a") := by decide +kernel

theorem test_hash_mid_message :
    nextState (exec (.hash [0x61, 0x62, 0x63]) (midMessage [0x61, 0x62])) =
      some { midMessage [0x61, 0x62] with
        resp := asciiBytes "ba7816bf8f01cfea414140de5dae2223b00361a396177a9cb410ff61f20015ad" } := by decide +kernel

theorem test_counter_wraps :
    (nextState (exec (.update [0x61]) { State.reset with hasher := { Hasher.reset with bitlen := 0xfffffffffffffff8 } })).map
      (fun t => (t.hasher.bitlen, t.hasher.fill)) = some (0, 1) := by decide +kernel

/-! The step: V2.12 -/

theorem test_step_moves_pointer :
    (nextState (step (powerOn [0x02, 0, 0, 0, 0, 0, 0, 0, 3, 0x61, 0x62, 0x63, 0x03]))).map (·.cp) = some 12 := by decide +kernel

theorem test_step_refuses :
    nextState (step (powerOn [0xff, 0x03])) =
      some { powerOn [0xff, 0x03] with refused := true, recorded := some ⟨0xff, 0⟩ } := by decide

theorem test_step_stops : step (powerOn []) = .fault .idle ∧ step (powerOn [0x02, 0, 0, 0]) = .fault .held := ⟨rfl, rfl⟩

theorem test_step_after_refusal :
    step { powerOn [0xff, 0x03] with refused := true, recorded := some ⟨0xff, 0⟩ } = .refused (.stopped (some ⟨0xff, 0⟩)) := rfl

theorem test_fetch_word_runs :
    (nextState (step (State.reset.withFetchWord 8 0x02))).map (fun t => (t.cp, t.hasher.phase)) = some (9, .accumulating) := by
  decide

/-! The assembler: R63, R64 -/

theorem test_assemble_abc :
    assemble ["UPDATE \"abc\"".toList] = some [0x02, 0, 0, 0, 0, 0, 0, 0, 3, 0x61, 0x62, 0x63] := by decide

theorem test_assemble_forms :
    assembleLine "HASH hex:".toList = some [.hash []] ∧ assembleLine "UPDATE \"\\x03\\\"\"".toList = some [.update [0x03, 0x22]] ∧
    assembleLine "REPEAT 0x61, 3".toList = some [.update [0x61, 0x61, 0x61]] ∧
    assembleLine "UPDATE_SPLIT \"abc\", 1".toList = some [.update [0x61], .update [0x62, 0x63]] ∧
    assembleLine "UPDATE hex:0".toList = none ∧ assembleLine "INIT 1".toList = none := by decide

/-! Operation counts: V2.5-1, V2.9 -/

theorem test_transform_counts :
    commandTransforms .finalize (midMessage (repeatByte 0x61 55)) = .ok 1 ∧
    commandTransforms .finalize (midMessage (repeatByte 0x61 56)) = .ok 2 := by decide +kernel

/-! Witnesses: a state and operands that meet the hypotheses of each statement that has some -/

theorem witness_Buffered : (midMessage [0x61, 0x62]).hasher.Buffered := ⟨by decide, by decide⟩

theorem witness_Buffered_full_but_one : (midMessage (repeatByte 0x61 63)).hasher.Buffered := ⟨by decide +kernel, by decide +kernel⟩

theorem witness_Holds : (midMessage [0x61, 0x62]).hasher.Holds [0x61, 0x62] := ⟨rfl, rfl, rfl, rfl⟩

theorem witness_State_Inv : (midMessage [0x61, 0x62]).Inv where
  hasher := ⟨witness_Buffered, by decide, by decide, by decide, by decide⟩
  cp_le := by decide
  resp_length := by decide
  resp_hex := by decide
  mark := rfl
  record := by intro r h; cases h

/-- The mid-message instance with a command stream supplied. -/
def onStream (bytes : List Byte) : State := { midMessage [0x61, 0x62] with stream := bytes }

theorem witness_StateIsResetInExactlyThreePlaces :
    (midMessage [0x61, 0x62]).hasher.Buffered ∧ ∃ t, exec (.update [0x63]) (midMessage [0x61, 0x62]) = .next t :=
  ⟨witness_Buffered, _, exec_update_of_ok (updatePath_eq witness_Buffered [0x63])⟩

theorem witness_AnyCommandMayComeFirst : (Instr.update [0x61]).WellFormed := by decide

theorem witness_DecoderGivesEachVerdict :
    decode [] = .done ∧ decode [0x05] = .illegal 0x05 ∧ decode [0x02, 0, 0, 0, 0, 0, 0, 0] = .incomplete ∧
    decode [0x02, 0, 0, 0, 0, 0, 0, 0, 0] = .cmd (.update []) 9 ∧ decode [0x04, 0, 0, 0, 0, 0, 0, 0, 1] = .incomplete ∧
    decode [0x04, 0, 0, 0, 0, 0, 0, 0, 1, 0xff] = .cmd (.hash [0xff]) 10 ∧ decode [0x01] = .cmd .init 1 ∧
    decode [0x03] = .cmd .finalize 1 := by decide

theorem witness_LengthBytesAreBigEndian : (be64bytes 0x0102030405060708)[0]? = some 1 ∧ (be64bytes 0x0102030405060708)[7]? = some 8 := by
  decide

theorem witness_DecodeOfEncodeIsTheCommand : (Instr.hash [0xff, 0x00]).WellFormed ∧ Instr.finalize.WellFormed := by decide

theorem witness_DecodedBytesAreTheCommandsEncoding :
    decode [0x02, 0, 0, 0, 0, 0, 0, 0, 1, 0x07, 0x03] = .cmd (.update [0x07]) 10 := by decide

theorem witness_OtherOpcodeBytesAreIllegal :
    (onStream [0x00, 0x03]).refused = false ∧ remaining (onStream [0x00, 0x03]) = 0x00 :: [0x03] ∧
    ¬ (1 ≤ (0x00 : Byte).toNat ∧ (0x00 : Byte).toNat ≤ 4) ∧ ¬ (1 ≤ (0x05 : Byte).toNat ∧ (0x05 : Byte).toNat ≤ 4) ∧
    (1 ≤ (0x01 : Byte).toNat ∧ (0x04 : Byte).toNat ≤ 4) := by decide

theorem witness_LaterBytesDoNotChangeAVerdict : decode [0x01] = .cmd .init 1 ∧ decode [0x00] = .illegal 0x00 := by decide

/-- A state no run reaches: the fill level is past the buffer. -/
def overfull : State :=
  { State.reset with
    stream := [0x02, 0, 0, 0, 0, 0, 0, 0, 1, 0x61]
    hasher := { Hasher.reset with fill := 64 } }

theorem witness_StepRunsTheDecodedCommand :
    (decode (remaining (onStream [0x01])) = .cmd .init 1 ∧ ∃ u, exec .init (onStream [0x01]) = .next u) ∧
    (decode (remaining overfull) = .cmd (.update [0x61]) 10 ∧
      exec (.update [0x61]) overfull = .fault (.bufferOffsetOutOfRange 64 1)) ∧
    decode (remaining (onStream [])) = .done ∧ decode (remaining (onStream [0x04])) = .incomplete ∧
    decode (remaining (onStream [0x09])) = .illegal 0x09 ∧ (raiseRefuse 0x09 (onStream [0x09])).refused = true :=
  ⟨⟨by decide, _, rfl⟩, ⟨by decide, rfl⟩, rfl, rfl, rfl, rfl⟩

theorem witness_CommandPointerMovesByTheCommandsLength :
    (onStream [0x01]).refused = false ∧ decode (remaining (onStream [0x01])) = .cmd .init 1 ∧
    (∃ t, step (onStream [0x01]) = .next t) ∧ decode (remaining (onStream [0x09])) = .illegal 0x09 ∧
    ∃ t, step (onStream [0x09]) = .next t :=
  ⟨rfl, rfl, ⟨_, rfl⟩, rfl, _, rfl⟩

theorem witness_IncompleteCommandHolds :
    Held (onStream [0x02, 0, 0, 0]) ∧ decode (remaining (onStream [0x02, 0, 0, 0]) ++ [0, 0, 0, 0]) = .incomplete ∧
    decode (remaining (onStream [0x02, 0, 0, 0]) ++ [0, 0, 0, 0, 1, 0x63]) = .cmd (.update [0x63]) 10 :=
  ⟨⟨rfl, rfl⟩, by decide, by decide⟩

theorem witness_RefusalIsPreciseAndFinal :
    ((onStream [0x09]).refused = false ∧ decode (remaining (onStream [0x09])) = .illegal 0x09) ∧
    (raiseRefuse 0x09 (onStream [0x09])).refused = true ∧ ∃ t, step (onStream [0x09]) = .next t :=
  ⟨⟨rfl, rfl⟩, rfl, _, rfl⟩

theorem witness_CommandStreamIsReadOnceAndNeverWritten : ∃ t, step (onStream [0x01]) = .next t ∧ t.refused = false := ⟨_, rfl, rfl⟩

theorem witness_ResponsesAreAppendedAndNeverReadBack : ∃ t, step (onStream [0x03]) = .next t :=
  ⟨_, (step_of_cmd (s := onStream [0x03]) (i := .finalize) (n := 1) rfl rfl).trans
    (congrArg (advance 1) (exec_finalize_of_ok (s := onStream [0x03]) (finalizeHasher_eq (h := (onStream [0x03]).hasher) witness_Buffered)))⟩

theorem witness_StreamOfCommandsRunsInOrder :
    (∀ i ∈ [Instr.update [0x63], Instr.finalize], i.WellFormed) ∧
    (onStream [0x02, 0, 0, 0, 0, 0, 0, 0, 1, 0x63, 0x03]).hasher.Buffered ∧
    remaining (onStream [0x02, 0, 0, 0, 0, 0, 0, 0, 1, 0x63, 0x03]) = [Instr.update [0x63], Instr.finalize].flatMap encode ++ [] :=
  ⟨by decide, witness_Buffered, by decide⟩

theorem witness_IdleBlockResumesWhenBytesArrive :
    Finished (onStream []) ∧ (onStream []).cp ≤ (onStream []).stream.length ∧ Instr.finalize.WellFormed :=
  ⟨⟨rfl, rfl⟩, by decide, by decide⟩

theorem witness_ShortUpdateOnlyBuffers :
    (midMessage [0x61, 0x62]).hasher.Buffered ∧ (midMessage [0x61, 0x62]).hasher.fill + (repeatByte 0x63 61).length < 64 :=
  ⟨witness_Buffered, by decide⟩

theorem witness_FillingUpdateCompressesTheBlock :
    (midMessage [0x61, 0x62]).hasher.Buffered ∧ (midMessage [0x61, 0x62]).hasher.fill + (repeatByte 0x63 62).length = 64 :=
  ⟨witness_Buffered, by decide⟩

theorem witness_InterleavedMessagesMix :
    (midMessage [0x61, 0x62]).hasher.Holds [0x61, 0x62] ∧ (midMessage [0x61, 0x62]).hasher ≠ Hasher.reset ∧
    ∃ t, exec (.hash [0x63]) (midMessage [0x61, 0x62]) = .next t ∧ t.hasher = (midMessage [0x61, 0x62]).hasher ∧
      t.resp ≠ (midMessage [0x61, 0x62]).resp := by
  refine ⟨witness_Holds, by decide, ?_⟩
  obtain ⟨h, hu⟩ : ∃ h, updatePath Hasher.reset [0x63] = .ok h := ⟨_, updatePath_eq Hasher.reset_buffered _⟩
  have hf := finalizeHasher_eq (updatePath_buffered Hasher.reset_buffered hu)
  have hh : hashMessage [0x63] = .ok (serialize (digestOver h.H (h.buf.bytes ++ pad h.fill ++ lengthField h.bitlen))) := by
    simp only [hashMessage, hu, hf]
  refine ⟨_, exec_hash_of_ok hh, rfl, fun he => ?_⟩
  have := congrArg List.length he
  simp at this

theorem witness_PadLenIsTheLeastPositive : (0 < 64 ∧ 55 < 64 ∧ 56 < 64 ∧ 63 < 64) ∧ (56 + 64) % 64 = 56 ∧ (0 + 56) % 64 = 56 := by
  decide

theorem witness_FinalBlocksHaveTheLayout :
    (repeatByte 0x61 55).length ≤ 55 ∧ 56 ≤ (repeatByte 0x61 56).length ∧ (repeatByte 0x61 63).length < 64 := by decide

theorem witness_RotationsShiftsAndSigmasByBit : (0 < 1 ∧ 1 < 32) ∧ (0 < 31 ∧ 31 < 32) ∧ 31 < 32 := by decide

theorem witness_ScheduleIsTheRecurrence :
    readBytes (Memory.ofBytes (repeatByte 0x61 64)) 0 64 = .ok (wholeBlock (repeatByte 0x61 64) 0) := by decide +kernel

theorem witness_SlidingWindowGivesTheSchedule : (0 ≤ 48 ∧ 48 ≤ 48) ∧ (0 < 16 ∧ 15 < 16) := by decide

theorem witness_SerializerIsABijection :
    (asciiBytes "00635e660000000aabcdef01100000000000000100000002000000030000000f").length = 64 ∧
    (∀ b ∈ asciiBytes "00635e660000000aabcdef01100000000000000100000002000000030000000f", isHexCode b = true) ∧
    serialize IV = serialize IV := by decide +kernel

theorem witness_MemReadJoinsBytesBigEndian :
    memRead (Memory.ofBytes [0x61, 0x62]) 0 2 = .ok 0x6162#16 ∧ 60 + 4 ≤ 64 ∧ 64 < 61 + 4 := by decide +kernel

theorem witness_MemWriteStoresBytesBigEndian : 60 + 4 ≤ 64 ∧ 64 < 61 + 4 ∧ Memory.wf [(0, 0x61)] := by decide

theorem witness_BytesWrittenReadBackAsAWord : 0 < 16 ∧ 15 < 16 := by decide

theorem witness_CommandsKeepTheCanonicalBuffer :
    (midMessage [0x61, 0x62]).hasher.buf.wf ∧ ∃ t, exec (.update [0x63]) (midMessage [0x61, 0x62]) = .next t :=
  ⟨by decide, _, exec_update_of_ok (updatePath_eq witness_Buffered [0x63])⟩

theorem witness_StepKeepsTheInvariant : (midMessage [0x61, 0x62]).Inv ∧ (onStream [0x01]).Inv ∧ ∃ t, step (onStream [0x01]) = .next t :=
  ⟨witness_State_Inv, ⟨witness_State_Inv.hasher, by decide, by decide, by decide, rfl, by intro r h; cases h⟩, _, rfl⟩

theorem witness_EveryCommandCompletesBetweenCommands : (midMessage [0x61, 0x62]).Inv ∧ (Instr.update [0x63]).WellFormed :=
  ⟨witness_State_Inv, by decide⟩

theorem witness_NoEffectDependsOnThePhase :
    (∃ t, exec .init (midMessage [0x61, 0x62]) = .next t) ∧
    exec (.update [0x61]) overfull = .fault (.bufferOffsetOutOfRange 64 1) := ⟨⟨_, rfl⟩, rfl⟩

theorem witness_TransformCountsPerCommand :
    (midMessage (repeatByte 0x61 63)).hasher.Buffered ∧ ∃ t n, updateCounting Hasher.reset [0x61] = .ok (t, n) :=
  ⟨witness_Buffered_full_but_one, _, _, rfl⟩

theorem witness_InstancesAreIndependent :
    ∃ w, stepInstance (n := 2) 0 #v[onStream [0x01], onStream [0x01]] = .next w ∧ (1 : Fin 2) ≠ 0 ∧ ∃ x, stepInstance 1 w = .next x :=
  ⟨_, rfl, by decide, _, rfl⟩

theorem witness_PseudoCommandsAreUpdates :
    splitCommands [0x61, 0x62, 0x63] [0, 3] = some [.update [], .update [0x61, 0x62, 0x63], .update []] := by decide

theorem witness_UpdateAbsorbsItsPayload : (midMessage (repeatByte 0x61 63)).hasher.Buffered := witness_Buffered_full_but_one

theorem witness_BitCounterWrapsModulo2To64 : (midMessage (repeatByte 0x61 63)).hasher.Buffered := witness_Buffered_full_but_one

theorem witness_ConsecutiveUpdatesAreOneUpdate : (midMessage (repeatByte 0x61 63)).hasher.Buffered := witness_Buffered_full_but_one

theorem witness_ChunkLoopIsTheByteLoop : Hasher.reset.Buffered ∧ (midMessage (repeatByte 0x61 63)).hasher.Buffered :=
  ⟨Hasher.reset_buffered, witness_Buffered_full_but_one⟩

theorem witness_FinalizeEmitsTheDigestAndResets : (midMessage (repeatByte 0x61 63)).hasher.Buffered := witness_Buffered_full_but_one

theorem witness_FinalizeEmitsTheMessagesDigest : (midMessage [0x61, 0x62]).hasher.Holds [0x61, 0x62] := witness_Holds

theorem witness_AfterFinalizeTheMessageIsGone : (midMessage [0x61, 0x62]).hasher.Buffered := witness_Buffered

theorem witness_PaddingCompletesOneOrTwoBlocks :
    ((midMessage [0x61, 0x62]).hasher.Buffered ∧ (midMessage [0x61, 0x62]).hasher.fill < 56) ∧
    (midMessage (repeatByte 0x61 63)).hasher.Buffered ∧ ¬ (midMessage (repeatByte 0x61 63)).hasher.fill < 56 :=
  ⟨⟨witness_Buffered, by decide⟩, witness_Buffered_full_but_one, by decide +kernel⟩

theorem witness_CompressIsSixtyFourRoundsAndAnAdd : (0 < 64) ∧ (63 < 64) := by decide

theorem witness_ConstantsAreTheRootsOfThePrimes : (0 < 64 ∧ 63 < 64) ∧ (0 < 8 ∧ 7 < 8) := by decide

theorem witness_ChoiceAndMajorityByBit : (0 < 32) ∧ (31 < 32) := by decide

theorem witness_SerializerGivesTheDigits : (0 < 8) ∧ (7 < 8) := by decide

theorem witness_CommandsKeepTheMessageHistory : (midMessage [0x61, 0x62]).hasher.Holds [0x61, 0x62] := witness_Holds

theorem witness_PhaseFollowsTheStateMachine : (midMessage [0x61, 0x62]).hasher.Buffered := witness_Buffered

end Sys2Proof.Tests
end

section
/-! PROOFS. The statements of spec/30_encoding.md about the decoder, the command pointer, illegal opcodes and incomplete commands.
First what each verdict of the decoder means, as an equivalence for every byte sequence; then each statement from these and from
the step's own rules in Sys2Proof/Laws/. -/

namespace Sys2Proof

open Sys2Proof.Machine

/-! The format-B decoder (R60) -/

theorem decodePayload_eq_incomplete_iff {mk : List Byte → Instr} {s : List Byte} :
    decodePayload mk s = .incomplete ↔ s.length < headerBytes ∨ s.length < headerBytes + operandLength s := by
  rcases decodePayload_cases mk s with ⟨hlen, hd⟩ | ⟨hlen, hd⟩ | ⟨hlen, hd⟩
  · simp [hd, hlen]
  · simp [hd, hlen]
  · simp only [hd, reduceCtorEq, false_iff]
    omega

theorem decodePayload_eq_cmd_iff {mk : List Byte → Instr} {s : List Byte} {i : Instr} {n : Nat} :
    decodePayload mk s = .cmd i n ↔
      headerBytes ≤ s.length ∧ n = headerBytes + operandLength s ∧ n ≤ s.length ∧ i = mk (operandData s) := by
  rcases decodePayload_cases mk s with ⟨hlen, hd⟩ | ⟨hlen, hd⟩ | ⟨hlen, hd⟩
  · simp only [hd, reduceCtorEq, false_iff]
    omega
  · simp only [hd, reduceCtorEq, false_iff]
    omega
  · simp only [hd, Verdict.cmd.injEq]
    constructor
    · rintro ⟨rfl, rfl⟩
      exact ⟨by omega, rfl, hlen, rfl⟩
    · rintro ⟨-, rfl, -, rfl⟩
      exact ⟨rfl, rfl⟩

@[simp] theorem decodePayload_ne_done (mk : List Byte → Instr) (s : List Byte) : decodePayload mk s ≠ .done := by
  rcases decodePayload_cases mk s with ⟨-, hd⟩ | ⟨-, hd⟩ | ⟨-, hd⟩ <;> simp [hd]

@[simp] theorem decodePayload_ne_illegal (mk : List Byte → Instr) (s : List Byte) (op : Byte) :
    decodePayload mk s ≠ .illegal op := by
  rcases decodePayload_cases mk s with ⟨-, hd⟩ | ⟨-, hd⟩ | ⟨-, hd⟩ <;> simp [hd]

/-! What each verdict means (R58, R60) -/

/-- The decoder by the first byte: the four rows of the opcode map of R57, and every other byte. -/
theorem decode_cons_cases (op : Byte) (rest : List Byte) :
    (op = 0x01#8 ∧ decode (op :: rest) = .cmd .init 1) ∨
    (op = 0x03#8 ∧ decode (op :: rest) = .cmd .finalize 1) ∨
    (op = 0x02#8 ∧ decode (op :: rest) = decodePayload .update (op :: rest)) ∨
    (op = 0x04#8 ∧ decode (op :: rest) = decodePayload .hash (op :: rest)) ∨
    ((op ≠ 0x01#8 ∧ op ≠ 0x02#8 ∧ op ≠ 0x03#8 ∧ op ≠ 0x04#8) ∧ decode (op :: rest) = .illegal op) := by
  by_cases h1 : op = 0x01#8
  · exact .inl ⟨h1, h1 ▸ decode_init rest⟩
  by_cases h3 : op = 0x03#8
  · exact .inr (.inl ⟨h3, h3 ▸ decode_finalize rest⟩)
  by_cases h2 : op = 0x02#8
  · exact .inr (.inr (.inl ⟨h2, h2 ▸ decode_update rest⟩))
  by_cases h4 : op = 0x04#8
  · exact .inr (.inr (.inr (.inl ⟨h4, h4 ▸ decode_hash rest⟩)))
  exact .inr (.inr (.inr (.inr ⟨⟨h1, h2, h3, h4⟩, decode_illegal rest h1 h2 h3 h4⟩)))

theorem decode_eq_done_iff {s : List Byte} : decode s = .done ↔ s = [] := by
  cases s with
  | nil => simp
  | cons op rest =>
    rcases decode_cons_cases op rest with ⟨-, hd⟩ | ⟨-, hd⟩ | ⟨-, hd⟩ | ⟨-, hd⟩ | ⟨-, hd⟩ <;> simp [hd]

/-- The illegal byte is the one at the front. -/
theorem decode_eq_illegal_iff {s : List Byte} {op : Byte} :
    decode s = .illegal op ↔ ∃ rest, s = op :: rest ∧ op ≠ 0x01#8 ∧ op ≠ 0x02#8 ∧ op ≠ 0x03#8 ∧ op ≠ 0x04#8 := by
  constructor
  · intro h
    cases s with
    | nil => simp at h
    | cons first rest =>
      rcases decode_cons_cases first rest with ⟨-, hd⟩ | ⟨-, hd⟩ | ⟨-, hd⟩ | ⟨-, hd⟩ | ⟨hop, hd⟩
      · simp [hd] at h
      · simp [hd] at h
      · simp [hd] at h
      · simp [hd] at h
      · rw [hd, Verdict.illegal.injEq] at h
        subst h
        exact ⟨rest, rfl, hop⟩
  · rintro ⟨rest, rfl, h1, h2, h3, h4⟩
    exact decode_illegal rest h1 h2 h3 h4

theorem decode_cons_eq_illegal_iff {op : Byte} {rest : List Byte} :
    decode (op :: rest) = .illegal op ↔ op ≠ 0x01#8 ∧ op ≠ 0x02#8 ∧ op ≠ 0x03#8 ∧ op ≠ 0x04#8 := by
  simp [decode_eq_illegal_iff]

theorem decode_eq_incomplete_iff {s : List Byte} :
    decode s = .incomplete ↔ ∃ op rest, s = op :: rest ∧ (op = 0x02#8 ∨ op = 0x04#8) ∧
      (s.length < headerBytes ∨ s.length < headerBytes + operandLength s) := by
  cases s with
  | nil => simp
  | cons op rest =>
    rcases decode_cons_cases op rest with ⟨rfl, hd⟩ | ⟨rfl, hd⟩ | ⟨rfl, hd⟩ | ⟨rfl, hd⟩ | ⟨⟨-, h2, -, h4⟩, hd⟩
    · simp [hd]
    · simp [hd]
    · simp [hd, decodePayload_eq_incomplete_iff]
    · simp [hd, decodePayload_eq_incomplete_iff]
    · simp [hd, h2, h4]

theorem decode_eq_cmd_iff {s : List Byte} {i : Instr} {n : Nat} :
    decode s = .cmd i n ↔
      (∃ rest, s = 0x01#8 :: rest ∧ i = .init ∧ n = 1) ∨
      (∃ rest, s = 0x03#8 :: rest ∧ i = .finalize ∧ n = 1) ∨
      (∃ rest, s = 0x02#8 :: rest ∧ headerBytes ≤ s.length ∧ n = headerBytes + operandLength s ∧ n ≤ s.length ∧
        i = .update (operandData s)) ∨
      (∃ rest, s = 0x04#8 :: rest ∧ headerBytes ≤ s.length ∧ n = headerBytes + operandLength s ∧ n ≤ s.length ∧
        i = .hash (operandData s)) := by
  cases s with
  | nil => simp
  | cons op rest =>
    rcases decode_cons_cases op rest with ⟨rfl, hd⟩ | ⟨rfl, hd⟩ | ⟨rfl, hd⟩ | ⟨rfl, hd⟩ | ⟨⟨h1, h2, h3, h4⟩, hd⟩
    · simp [hd, eq_comm]
    · simp [hd, eq_comm]
    · simp [hd, decodePayload_eq_cmd_iff]
    · simp [hd, decodePayload_eq_cmd_iff]
    · simp [hd, h1, h2, h3, h4]

/-- Settles O5: the decoder's four equivalences, with the header's nine bytes and the length field written out. -/
theorem decoderGivesEachVerdict : Obligations.DecoderGivesEachVerdict := fun _ =>
  ⟨decode_eq_done_iff, fun _ => decode_eq_illegal_iff, decode_eq_incomplete_iff, fun _ _ => decode_eq_cmd_iff⟩

/-! The length of a decoded command (R59) -/

theorem operandData_length {s : List Byte} (h : headerBytes + operandLength s ≤ s.length) :
    (operandData s).length = operandLength s := by
  rw [operandData, List.length_take, List.length_drop]
  omega

/-- The length the decoder answers is the length of the command it answers. -/
theorem decode_cmd_length {s : List Byte} {i : Instr} {n : Nat} (h : decode s = .cmd i n) : n = commandLength i := by
  rcases decode_eq_cmd_iff.mp h with
    ⟨rest, -, rfl, rfl⟩ | ⟨rest, -, rfl, rfl⟩ | ⟨rest, -, -, rfl, hlen, rfl⟩ | ⟨rest, -, -, rfl, hlen, rfl⟩
  · rfl
  · rfl
  · simp [commandLength, Instr.format, Instr.payload, operandData_length hlen]
  · simp [commandLength, Instr.format, Instr.payload, operandData_length hlen]

namespace Machine

/-- A command step leaves the pointer past the command. -/
theorem step_cp_of_cmd {s t : State} {i : Instr} {n : Nat} (hr : s.refused = false) (hd : decode (remaining s) = .cmd i n)
    (h : step s = .next t) : t.cp = s.cp + n := by
  rw [step_of_cmd hr hd] at h
  obtain ⟨u, hu, rfl⟩ := advance_eq_next h
  obtain ⟨-, hcp, -, -⟩ := exec_frame hu
  simp [hcp]

/-- A refusal leaves the pointer. -/
theorem step_cp_of_illegal {s t : State} {op : Byte} (hd : decode (remaining s) = .illegal op) (h : step s = .next t) :
    t.cp = s.cp := by
  obtain ⟨hr, -⟩ := step_eq_next h
  rw [step_of_illegal hr hd, Host.Outcome.next.injEq] at h
  rw [← h, raiseRefuse_cp]

/-- Settles O13: the command's frame keeps the pointer, and the decoder's length is the command's. -/
theorem commandPointerMovesByTheCommandsLength : Obligations.CommandPointerMovesByTheCommandsLength := by
  refine ⟨fun _ => rfl, fun s t i h => ?_, fun s t i n hr hd h => ?_, fun s t op => step_cp_of_illegal⟩
  · obtain ⟨-, hcp, -, -⟩ := exec_frame h
    exact hcp
  · have hn := decode_cmd_length hd
    exact ⟨hn, hn ▸ step_cp_of_cmd hr hd h⟩

/-! Illegal opcodes (R58) -/

/-- The opcode map of R57 holds the byte values 1 to 4. -/
theorem not_opcode_range_iff {op : Byte} :
    ¬ (1 ≤ op.toNat ∧ op.toNat ≤ 4) ↔ op ≠ 0x01#8 ∧ op ≠ 0x02#8 ∧ op ≠ 0x03#8 ∧ op ≠ 0x04#8 := by
  bv_omega

theorem decode_cons_eq_illegal_iff_toNat {op : Byte} {rest : List Byte} :
    decode (op :: rest) = .illegal op ↔ ¬ (1 ≤ op.toNat ∧ op.toNat ≤ 4) :=
  decode_cons_eq_illegal_iff.trans not_opcode_range_iff.symm

/-- After a refusal the block has no further step (R107). -/
theorem step_ne_next_of_refused {s : State} (h : s.refused = true) (t : State) : step s ≠ .next t := by
  simp [step_of_refused h]

theorem illegal_opcode_count :
    ((List.range 256).filter fun n => decode [BitVec.ofNat 8 n] == .illegal (BitVec.ofNat 8 n)).length = 252 := by
  decide +kernel

/-- Settles O10: the step on an illegal byte is the refusal, which sets only the mark and its record. -/
theorem otherOpcodeBytesAreIllegal : Obligations.OtherOpcodeBytesAreIllegal := by
  refine ⟨fun _ _ => decode_cons_eq_illegal_iff_toNat, illegal_opcode_count, fun s op rest hr hrem hop => ?_⟩
  have hd : decode (remaining s) = .illegal op := hrem ▸ decode_cons_eq_illegal_iff_toNat.mpr hop
  exact ⟨raiseRefuse op s, step_of_illegal hr hd, rfl, rfl, rfl, rfl, step_ne_next_of_refused rfl⟩

/-! Incomplete commands (R61) -/

/-- Inside a command there are bytes left, so the pointer is inside the stream. -/
theorem Held.cp_le {s : State} (h : Held s) : s.cp ≤ s.stream.length := by
  obtain ⟨-, hd⟩ := h
  obtain ⟨op, rest, hrem, -⟩ := decode_eq_incomplete_iff.mp hd
  have hlen := congrArg List.length hrem
  simp [remaining] at hlen
  omega

theorem Held.step_ne_next {s : State} (h : Held s) (t : State) : step s ≠ .next t := by
  obtain ⟨hr, hd⟩ := h
  simp [step_of_incomplete hr hd]

theorem Held.not_finished {s : State} (h : Held s) : ¬ Finished s := by
  obtain ⟨-, hd⟩ := h
  rintro ⟨-, hdone⟩
  simp [hd] at hdone

/-- What the host appends comes after the bytes still to be decoded, when the pointer is inside the stream. -/
theorem remaining_hostAppend {s : State} (h : s.cp ≤ s.stream.length) (more : List Byte) :
    remaining (hostAppend more s) = remaining s ++ more :=
  List.drop_append_of_le_length h

/-- Settles O14: a held block steps only as the decoder's verdict on the old and the new bytes together allows. -/
theorem incompleteCommandHolds : Obligations.IncompleteCommandHolds := by
  intro s hs
  refine ⟨hs.step_ne_next, hs.not_finished, fun more => ?_⟩
  rw [← remaining_hostAppend hs.cp_le]
  obtain ⟨hr, -⟩ := hs
  refine ⟨fun hd => ?_, fun i n hd => step_of_cmd hr hd⟩
  have hheld : Held (hostAppend more s) := ⟨hr, hd⟩
  exact ⟨hheld, hheld.step_ne_next⟩

end Machine

end Sys2Proof
end

section
/-! PROOFS. The statements of spec/41_padding_serializer.md about the padding length (section 1) and the serializer's digits
(section 2). -/

namespace Sys2Proof

open Sys2Proof.Machine

namespace Machine

/-! The padding length (R79) -/

theorem padLen_of_lt {L : Nat} (h : L < 56) : padLen L = 56 - L := if_pos h

theorem padLen_of_le {L : Nat} (h : 56 ≤ L) : padLen L = 120 - L := if_neg (Nat.not_lt.mpr h)

theorem padLen_le_blockBytes (L : Nat) : padLen L ≤ 64 := by
  obtain h | h := Nat.lt_or_ge L 56
  · rw [padLen_of_lt h]; omega
  · rw [padLen_of_le h]; omega

/-- The fill level and the padding leave exactly the length field's eight bytes of a block. -/
theorem add_padLen_mod {L : Nat} (hL : L < 64) : (L + padLen L) % 64 = 56 := by
  obtain h | h := Nat.lt_or_ge L 56
  · rw [padLen_of_lt h]; omega
  · rw [padLen_of_le h]; omega

/-- Two lengths with one residue differ by a multiple of 64, and the padding length is at most 64. -/
theorem padLen_le_of_mod {L p : Nat} (hL : L < 64) (hp : 1 ≤ p) (hmod : (L + p) % 64 = 56) : padLen L ≤ p := by
  have hle := padLen_le_blockBytes L
  have hpad := add_padLen_mod hL
  omega

/-- Settles O32: the four parts of R79, the boundary values by the two equations of the padding length. -/
theorem padLenIsTheLeastPositive : Obligations.PadLenIsTheLeastPositive :=
  ⟨fun _ _ => rfl,
   fun L hL => ⟨padLen_pos L hL, padLen_le_blockBytes L, add_padLen_mod hL, fun _ => padLen_le_of_mod hL⟩,
   padLen_of_lt (by decide), padded_total (by decide), padLen_of_le (by decide), padded_total (by decide)⟩

/-! The serializer, digit by digit (R86, R87) -/

/-- Where every element gives k entries, entry j of element i stands at k * i + j. -/
theorem flatMap_getElem?_of_const {α β : Type} {f : α → List β} {k : Nat} (hf : ∀ x, (f x).length = k) {j : Nat}
    (hj : j < k) (l : List α) (i : Nat) (hi : i < l.length) : (l.flatMap f)[k * i + j]? = (f l[i])[j]? := by
  induction l generalizing i with
  | nil => simp at hi
  | cons x l ih =>
    rw [List.flatMap_cons]
    cases i with
    | zero => simp [List.getElem?_append_left, hf, hj]
    | succ i =>
      have hpos : k * (i + 1) + j - (f x).length = k * i + j := by rw [hf, Nat.mul_succ]; omega
      have hge : (f x).length ≤ k * (i + 1) + j := by rw [hf, Nat.mul_succ]; omega
      rw [List.getElem?_append_right hge, hpos, ih i (by simpa using hi), List.getElem_cons_succ]

/-- Digit d of a word, counted from the least significant, is its character 7 - d. -/
theorem serializeWord_getElem? (w : Word) {d : Nat} (hd : d < 8) :
    (serializeWord w)[7 - d]? = some (hexChar (w.extractLsb' (4 * d) 4)) := by
  have hdigits : ∀ d < 8, [7, 6, 5, 4, 3, 2, 1, 0][7 - d]? = some d := by decide
  rw [serializeWord, List.getElem?_map, hdigits d hd, Option.map_some]

theorem serialize_getElem? (H : Digest) {i d : Nat} (hi : i < 8) (hd : d < 8) :
    (serialize H)[8 * i + (7 - d)]? = some (hexChar (H[i].extractLsb' (4 * d) 4)) := by
  rw [serialize, flatMap_getElem?_of_const serializeWord_length (by omega) _ i (by simpa using hi), serializeWord_getElem? _ hd,
    Vector.getElem_toList]

/-- A field of bits is the quotient by a power of two, cut to the width of the field. -/
theorem extractLsb'_eq_ofNat_toNat_div (w : Word) (start len : Nat) :
    w.extractLsb' start len = BitVec.ofNat len (w.toNat / 2 ^ start) := by
  rw [BitVec.extractLsb', Nat.shiftRight_eq_div_pow]

/-- Settles O44: each output byte is a digit of its word, and the example word keeps its leading zeros. -/
theorem serializerGivesTheDigits : Obligations.SerializerGivesTheDigits := by
  refine ⟨fun H => ⟨serialize_length H, fun i d hi hd => ?_⟩, fun _ => rfl, by decide⟩
  rw [serialize_getElem? H hi hd, extractLsb'_eq_ofNat_toNat_div]

end Machine

end Sys2Proof
end

section
/-! PROOFS. The statement of spec/42_transform.md section 2 about rotation, shift and the sigma functions. -/

namespace Sys2Proof

open Sys2Proof.Machine

namespace Machine

/-! Rotation and shift, bit by bit (R91) -/

/-- The right shift fills with zeros. -/
theorem getLsbD_ushiftRight_of_le {n i : Nat} (x : Word) (h : 32 - n ≤ i) : (x >>> n).getLsbD i = false := by
  rw [BitVec.getLsbD_ushiftRight, BitVec.getLsbD_of_ge x _ (by omega)]

theorem getLsbD_ushiftRight_eq_decide_and (x : Word) (n i : Nat) :
    (x >>> n).getLsbD i = (decide (i < 32 - n) && x.getLsbD (i + n)) := by
  obtain h | h := Nat.lt_or_ge i (32 - n)
  · simp [h, Nat.add_comm]
  · simp [getLsbD_ushiftRight_of_le x h, Nat.not_lt.mpr h]

/-- Below bit 32 - n a rotated word has the bits that the right shift keeps. -/
theorem getLsbD_rotr_of_lt {n i : Nat} (x : Word) (h : i < 32 - n) : (rotr x n).getLsbD i = x.getLsbD (i + n) := by
  rw [rotr, BitVec.getLsbD_or, BitVec.getLsbD_ushiftRight, BitVec.getLsbD_shiftLeft]
  simp [h, Nat.add_comm]

/-- From bit 32 - n up a rotated word has the n low bits that the right shift drops. -/
theorem getLsbD_rotr_of_le {n i : Nat} (x : Word) (h : 32 - n ≤ i) (hi : i < 32) :
    (rotr x n).getLsbD i = x.getLsbD (i - (32 - n)) := by
  rw [rotr, BitVec.getLsbD_or, getLsbD_ushiftRight_of_le x h, BitVec.getLsbD_shiftLeft]
  simp [hi, Nat.not_lt.mpr h]

theorem getLsbD_rotr {n i : Nat} (x : Word) (hn : n < 32) (hi : i < 32) :
    (rotr x n).getLsbD i = x.getLsbD ((i + n) % 32) := by
  obtain h | h := Nat.lt_or_ge i (32 - n)
  · rw [getLsbD_rotr_of_lt x h, Nat.mod_eq_of_lt (by omega)]
  · have hwrap : (i + n) % 32 = i - (32 - n) := by omega
    rw [getLsbD_rotr_of_le x h hi, hwrap]

/-- Settles O38: the bits of a rotation on each side of the wrap, the zero fill of the shift, and the sigma functions as they are
defined. -/
theorem rotationsShiftsAndSigmasByBit : Obligations.RotationsShiftsAndSigmasByBit :=
  ⟨fun x n i _ hn hi => ⟨getLsbD_rotr x hn hi, rfl, getLsbD_ushiftRight_eq_decide_and x n i⟩,
   fun _ => ⟨rfl, rfl, rfl, rfl⟩⟩

end Machine

end Sys2Proof
end

section
/-! PROOFS. The statement of spec/60_exceptions.md about the refusal of an illegal opcode. -/

namespace Sys2Proof

open Sys2Proof.Machine

namespace Machine

/-- A refused run never ends at End. -/
theorem not_finished_of_refused {s : State} (h : s.refused = true) : ¬ Finished s := by
  rintro ⟨hr, -⟩
  simp [h] at hr

/-- Bytes the host appends leave the mark, so a refused block has no step on them either (R107). -/
theorem step_hostAppend_ne_next_of_refused {s : State} (h : s.refused = true) (more : List Byte) (t : State) :
    step (hostAppend more s) ≠ .next t :=
  step_ne_next_of_refused ((hostAppend_refused more s).trans h) t

/-- Settles O15: an illegal byte's step is the refusal, which sets only the mark and its record; no step leaves a state whose mark
is set. -/
theorem refusalIsPreciseAndFinal : Obligations.RefusalIsPreciseAndFinal := by
  refine ⟨fun s op hr hd => ?_, fun s hr => ?_, fun s t h => ?_, powerOn_refused⟩
  · exact ⟨raiseRefuse op s, step_of_illegal hr hd, raiseRefuse_refused op s, raiseRefuse_recorded op s, raiseRefuse_hasher op s,
      raiseRefuse_cp op s, raiseRefuse_resp op s, raiseRefuse_stream op s⟩
  · exact ⟨not_finished_of_refused hr, step_hostAppend_ne_next_of_refused hr⟩
  · obtain ⟨hr, -⟩ := step_eq_next h
    exact hr

end Machine

end Sys2Proof
end

section
/-! PROOFS. The statements of spec/70_reset_and_hazards.md about the reset state, the places that reset it, and the two rules for
software: after FINALIZE the message is gone, and interleaved messages mix. First what each command does to a context that holds a
message; then each statement from these. -/

namespace Sys2Proof

open Sys2Proof.Machine

namespace Machine

/-! No update leaves the phase FRESH (R23, R68, D14) -/

theorem flush_phase {h h' : Hasher} (he : flush h = .ok h') : h'.phase = h.phase := by
  unfold flush at he
  split at he
  · cases he
    rfl
  · cases he

theorem absorbByte_phase {h h' : Hasher} {b : Byte} (he : absorbByte h b = .ok h') : h'.phase = h.phase := by
  unfold absorbByte at he
  split at he
  · split at he
    · exact (flush_phase he :)
    · cases he
      rfl
  · cases he

theorem absorb_phase {h h' : Hasher} {data : List Byte} (he : absorb h data = .ok h') : h'.phase = h.phase := by
  induction data generalizing h with
  | nil =>
    cases he
    rfl
  | cons b bs ih =>
    unfold absorb at he
    split at he
    · next h₁ hb => exact (ih he).trans (absorbByte_phase hb)
    · cases he

theorem updatePath_phase {h h' : Hasher} {data : List Byte} (he : updatePath h data = .ok h') : h'.phase = .accumulating :=
  absorb_phase he

/-- The reset context is FRESH, and an update leaves the phase ACCUMULATING, whatever the context before it. -/
theorem updatePath_ne_reset {h h' : Hasher} {data : List Byte} (he : updatePath h data = .ok h') : h' ≠ Hasher.reset := by
  rintro rfl
  have hphase := updatePath_phase he
  simp at hphase

/-- A finalizer that completes has reset its context, whatever the context before it (R73). -/
theorem finalizeHasher_eq_reset {h h' : Hasher} {out : List Byte} (he : finalizeHasher h = .ok (out, h')) :
    h' = Hasher.reset := by
  unfold finalizeHasher at he
  split at he
  · cases he
    rfl
  · cases he

/-! The commands on a context that holds a message (R31, R68, R73, R75) -/

theorem updatePath_of_holds {h : Hasher} {m : List Byte} (hm : h.Holds m) (data : List Byte) :
    ∃ h', updatePath h data = .ok h' ∧ h'.Holds (m ++ data) := by
  refine ⟨_, updatePath_eq hm.buffered data, ?_, ?_, ?_, ?_⟩
  · rw [hm.H, hm.buf, Memory.bytes_ofBytes, ← digestOver_append]
  · simp only [hm.fill, List.length_append, Nat.mod_add_mod]
  · simp only [hm.buf, Memory.bytes_ofBytes, ← leftover_append]
  · simp only [hm.bitlen, bitCount_append]

theorem exec_update_of_holds {s : State} {m : List Byte} (hm : s.hasher.Holds m) (data : List Byte) :
    ∃ h', exec (.update data) s = .next { s with hasher := h' } ∧ h'.Holds (m ++ data) := by
  obtain ⟨h', he, hm'⟩ := updatePath_of_holds hm data
  exact ⟨h', exec_update_of_ok he, hm'⟩

theorem exec_finalize_of_holds {s : State} {m : List Byte} (hm : s.hasher.Holds m) :
    exec .finalize s = .next (emit (sha256 m) { s with hasher := Hasher.reset }) :=
  exec_finalize_of_ok (finalizeHasher_of_holds hm)

theorem hashMessage_eq (data : List Byte) : hashMessage data = .ok (sha256 data) := by
  obtain ⟨h, he, hm⟩ := updatePath_of_holds Hasher.reset_holds_nil data
  simp only [hashMessage, he, finalizeHasher_of_holds hm, List.nil_append]

theorem exec_hash (data : List Byte) (s : State) : exec (.hash data) s = .next (emit (sha256 data) s) :=
  exec_hash_of_ok (hashMessage_eq data)

/-- Consecutive UPDATEs hold the concatenation of their payloads, and emit nothing. -/
theorem execAll_updates_of_holds {s : State} {m : List Byte} (hm : s.hasher.Holds m) (payloads : List (List Byte)) :
    ∃ h', execAll (payloads.map .update) s = .next { s with hasher := h' } ∧ h'.Holds (m ++ payloads.flatten) := by
  induction payloads generalizing s m with
  | nil => exact ⟨s.hasher, rfl, by simpa using hm⟩
  | cons data rest ih =>
    obtain ⟨h₁, he, hm₁⟩ := exec_update_of_holds hm data
    obtain ⟨h', hrest, hm'⟩ := ih (s := { s with hasher := h₁ }) hm₁
    refine ⟨h', ?_, by simpa using hm'⟩
    simp only [List.map_cons, execAll, he, hrest]

/-- A command that responds is a HASH, or a FINALIZE, which resets its context. -/
theorem hash_or_reset_of_resp_ne {s t : State} {i : Instr} (h : exec i s = .next t) (hresp : t.resp ≠ s.resp) :
    (∃ data, i = .hash data) ∨ t.hasher = Hasher.reset := by
  rcases exec_eq_next h with ⟨-, rfl⟩ | ⟨_, _, -, -, rfl⟩ | ⟨_, _, -, he, rfl⟩ | ⟨data, _, hi, -, -⟩
  · exact absurd (resetInstance_resp s) hresp
  · exact absurd rfl hresp
  · exact .inr (finalizeHasher_eq_reset he)
  · exact .inl ⟨data, hi⟩

/-! The statements -/

/-- Settles O3: the update path ends in a phase that is not the reset one; every other place is its command's own equation. -/
theorem stateIsResetInExactlyThreePlaces : Obligations.StateIsResetInExactlyThreePlaces := by
  refine ⟨powerOn_hasher, exec_init, fun s hb => ?_, fun s data t h => ?_, fun s data => ?_, fun s op => raiseRefuse_hasher op s⟩
  · exact ⟨_, exec_finalize_of_ok (finalizeHasher_eq hb), rfl⟩
  · rcases exec_eq_next h with ⟨hi, -⟩ | ⟨_, _, -, he, rfl⟩ | ⟨_, _, hi, -⟩ | ⟨_, _, hi, -⟩
    · cases hi
    · exact updatePath_ne_reset he
    · cases hi
    · cases hi
  · exact ⟨_, exec_hash data s, emit_hasher _ s⟩

/-- Settles O28: UPDATEs extend the one message the block holds, HASH works on a context of its own, and the one other command that
responds is FINALIZE, which resets. -/
theorem interleavedMessagesMix : Obligations.InterleavedMessagesMix := by
  refine ⟨fun s m x y z hm => ?_, fun s x => ⟨_, exec_hash x s, rfl, rfl⟩, fun s t i h hsame hreset hresp => ?_⟩
  · obtain ⟨h', hall, hm'⟩ := execAll_updates_of_holds hm [x, y, z]
    refine ⟨_, _, hall, exec_finalize_of_holds hm', ?_⟩
    simp
  · exact (hash_or_reset_of_resp_ne h hresp).resolve_right fun ht => hreset (hsame ▸ ht)

/-- The empty-message digest (R126). -/
theorem sha256_nil : sha256 [] = asciiBytes "e3b0c44298fc1c149afbf4c8996fb92427ae41e4649b934ca495991b7852b855" := by
  decide +kernel

/-- Settles O31: FINALIZE leaves the reset context, which holds the empty message. -/
theorem afterFinalizeTheMessageIsGone : Obligations.AfterFinalizeTheMessageIsGone := by
  intro s hb
  refine ⟨_, exec_finalize_of_ok (finalizeHasher_eq hb), ?_, fun data => ?_⟩
  · exact ⟨_, exec_finalize_of_holds Hasher.reset_holds_nil, congrArg (_ ++ ·) sha256_nil⟩
  · obtain ⟨h', he, hm⟩ := exec_update_of_holds (s := emit _ { s with hasher := Hasher.reset }) Hasher.reset_holds_nil data
    exact ⟨_, he, hm⟩

/-- Settles O1: each field of the reset record, and INIT's own equation. -/
theorem powerOnGivesTheResetState : Obligations.PowerOnGivesTheResetState := fun stream =>
  ⟨rfl, Hasher.reset_fill, Hasher.reset_bitlen, Hasher.reset_phase, powerOn_cp stream, powerOn_resp stream, powerOn_refused stream,
   List.drop_zero, rfl, exec_init⟩

end Machine

end Sys2Proof
end

section
/-! PROOFS. The statements of spec/30_encoding.md about the encoder and the decoder together, and about the length field. First the
round trips of bytes and big-endian values; then decode after encode, and encode after decode. -/

namespace Sys2Proof

open Sys2Proof.Machine

namespace Machine

/-! Bytes joined into a value, and the bytes of a value (R11, R38, R39) -/

/-- The byte joined last is the lowest byte. -/
theorem extractLsb'_join_low {w : Nat} (v : BitVec w) (b : Byte) (hw : 8 ≤ w) :
    ((v <<< 8) ||| b.setWidth w).extractLsb' 0 8 = b := by
  ext i hi
  have hiw : i < w := by omega
  simp [hi, hiw]

/-- The bytes joined before are the higher bytes, one place up. -/
theorem extractLsb'_join_high {w : Nat} (v : BitVec w) (b : Byte) {m : Nat} (hw : 8 * (m + 2) ≤ w) :
    ((v <<< 8) ||| b.setWidth w).extractLsb' (8 * (m + 1)) 8 = v.extractLsb' (8 * m) 8 := by
  ext i hi
  have hiw : 8 * (m + 1) + i < w := by omega
  have hle : ¬ 8 * (m + 1) + i < 8 := by omega
  have hidx : 8 * (m + 1) + i - 8 = 8 * m + i := by omega
  have hb : b.getLsbD (8 * (m + 1) + i) = false := BitVec.getLsbD_of_ge _ _ (by omega)
  have hv : 8 * m + i < w := by omega
  simp [hiw, hle, hidx, hb, BitVec.getLsbD_eq_getElem hv]

/-- Byte k of joined bytes, counted from the most significant, is the k-th byte joined. -/
theorem extractLsb'_foldl_join {w : Nat} (bs : List Byte) (hw : 8 * bs.length ≤ w) {k : Nat} (hk : k < bs.length) :
    (bs.foldl (fun (v : BitVec w) b => (v <<< 8) ||| b.setWidth w) 0).extractLsb' (8 * (bs.length - k) - 8) 8 = bs[k] := by
  induction bs using List.reverseRecOn with
  | nil => simp at hk
  | append_singleton bs b ih =>
    simp only [List.length_append, List.length_singleton] at hw hk
    simp only [List.foldl_append, List.foldl_cons, List.foldl_nil, List.length_append, List.length_singleton]
    obtain hlast | hlt : k = bs.length ∨ k < bs.length := by omega
    · subst hlast
      have hpos : 8 * (bs.length + 1 - bs.length) - 8 = 0 := by omega
      rw [hpos, extractLsb'_join_low _ _ (by omega)]
      simp
    · have hpos : 8 * (bs.length + 1 - k) - 8 = 8 * (bs.length - k - 1 + 1) := by omega
      have hprev : 8 * (bs.length - k - 1) = 8 * (bs.length - k) - 8 := by omega
      rw [hpos, extractLsb'_join_high _ _ (by omega), hprev, ih (by omega) hlt, List.getElem_append_left hlt]

/-- Bytes joined into a value and split again are the bytes. -/
theorem splitBytes_joinBytes {n : Nat} {bs : List Byte} (h : bs.length = n) : splitBytes (joinBytes (n := n) bs) = bs := by
  subst h
  refine List.ext_getElem (splitBytes_length _) fun k _ hk => ?_
  rw [← extractLsb'_foldl_join bs (Nat.le_refl _) hk]
  simp only [splitBytes, List.getElem_map, List.getElem_range]
  rfl

/-- Eight bytes read as a 64-bit value and spelled again are the bytes. -/
theorem be64bytes_be64 {bs : List Byte} (h : bs.length = 8) : be64bytes (be64 bs) = bs := splitBytes_joinBytes h

/-- Joining a byte to a value that leaves room for it is multiplying by 256 and adding. -/
theorem toNat_join_byte (v : Count) (b : Byte) (hv : v.toNat < 2 ^ 56) :
    ((v <<< 8) ||| b.setWidth 64).toNat = v.toNat * 256 + b.toNat := by
  have hb := b.isLt
  have hshift : (v.toNat <<< 8) % 2 ^ 64 = v.toNat <<< 8 := by
    rw [Nat.shiftLeft_eq]
    omega
  have hbyte : b.toNat % 2 ^ 64 = b.toNat := by omega
  rw [BitVec.toNat_or, BitVec.toNat_shiftLeft, BitVec.toNat_setWidth, hshift, hbyte, ← Nat.shiftLeft_add_eq_or_of_lt hb,
    Nat.shiftLeft_eq]

/-- Bytes joined to a value that leaves room for all of them. -/
theorem toNat_foldl_join (bs : List Byte) (v : Count) (hv : v.toNat < 2 ^ (64 - 8 * bs.length)) (hlen : bs.length ≤ 8) :
    (bs.foldl (fun (u : Count) b => (u <<< 8) ||| b.setWidth 64) v).toNat = bs.foldl (fun x b => x * 256 + b.toNat) v.toNat := by
  induction bs generalizing v with
  | nil => rfl
  | cons b bs ih =>
    have hb := b.isLt
    simp only [List.length_cons] at hv hlen
    have hpow : 2 ^ (64 - 8 * bs.length) = 2 ^ (64 - 8 * (bs.length + 1)) * 256 := by
      rw [← Nat.pow_add (a := 2) (n := 8)]
      congr 1
      omega
    have hroom : v.toNat < 2 ^ 56 := Nat.lt_of_lt_of_le hv (Nat.pow_le_pow_right (by omega) (by omega))
    have hstep := toNat_join_byte v b hroom
    rw [List.foldl_cons, List.foldl_cons, ih _ (by omega) (by omega), hstep]

theorem extractLsb'_eq_ofNat_div {w : Nat} (v : BitVec w) (start len : Nat) :
    v.extractLsb' start len = BitVec.ofNat len (v.toNat / 2 ^ start) := by
  rw [BitVec.extractLsb', Nat.shiftRight_eq_div_pow]

theorem be64bytes_getElem? (v : Count) {k : Nat} (hk : k < 8) :
    (be64bytes v)[k]? = some (BitVec.ofNat 8 (v.toNat / 2 ^ (56 - 8 * k))) := by
  simp [be64bytes, hk, extractLsb'_eq_ofNat_div]

/-- Settles O6: the value by the eight joins, the round trip, and each byte as a field of bits. -/
theorem lengthBytesAreBigEndian : Obligations.LengthBytesAreBigEndian := by
  refine ⟨fun b1 b2 b3 b4 b5 b6 b7 b8 => ?_, be64_be64bytes, fun v k => be64bytes_getElem? v⟩
  have h := toNat_foldl_join [b1, b2, b3, b4, b5, b6, b7, b8] 0 Nat.one_pos (Nat.le_refl 8)
  simp only [List.foldl_cons, List.foldl_nil] at h
  rw [be64]
  simp only [List.foldl_cons, List.foldl_nil, h]
  omega

end Machine

/-! Decode after encode (R53 to R60) -/

theorem encode_length (i : Instr) : (encode i).length = commandLength i := by
  cases i with
  | init => exact Laws.EncodeShape.init.2
  | update data => exact (Laws.EncodeShape.update data).2
  | finalize => exact Laws.EncodeShape.finalize.2
  | hash data => exact (Laws.EncodeShape.hash data).2

/-- The payload of an encoded format-B command is read back whole, whatever follows it. -/
theorem operandData_encoded (op : Byte) {data : List Byte} (rest : List Byte) (h : data.length < 2 ^ 64) :
    operandData (op :: (be64bytes (BitVec.ofNat 64 data.length) ++ data ++ rest)) = data := by
  rw [operandData, operandLength_encoded op rest h, List.append_assoc, headerBytes, List.drop_succ_cons,
    List.drop_left' (be64bytes_length _), List.take_left]

theorem decodePayload_encoded (mk : List Byte → Instr) (op : Byte) {data : List Byte} (rest : List Byte)
    (h : data.length < 2 ^ 64) :
    decodePayload mk (op :: (be64bytes (BitVec.ofNat 64 data.length) ++ data ++ rest)) =
      .cmd (mk data) (headerBytes + data.length) := by
  have hlen : headerBytes + data.length ≤ (op :: (be64bytes (BitVec.ofNat 64 data.length) ++ data ++ rest)).length := by
    simp only [List.length_cons, List.length_append, be64bytes_length, headerBytes]
    omega
  refine decodePayload_eq_cmd_iff.mpr ⟨by omega, ?_, hlen, ?_⟩
  · rw [operandLength_encoded op rest h]
  · rw [operandData_encoded op rest h]

theorem decode_encode (i : Instr) (rest : List Byte) (h : i.WellFormed) : decode (encode i ++ rest) = .cmd i (commandLength i) := by
  cases i with
  | init => exact decode_init rest
  | update data => exact (decode_update _).trans (decodePayload_encoded .update 0x02#8 rest h)
  | finalize => exact decode_finalize rest
  | hash data => exact (decode_hash _).trans (decodePayload_encoded .hash 0x04#8 rest h)

/-- Settles O7: format A by the opcode alone, format B by the round trip of the length field. -/
theorem decodeOfEncodeIsTheCommand : Obligations.DecodeOfEncodeIsTheCommand := fun i rest h =>
  ⟨decode_encode i rest h, encode_length i⟩

/-! Encode after decode (R60) -/

/-- The length field is eight bytes, so the payload it counts fits it. -/
theorem operandLength_lt (s : List Byte) : operandLength s < 2 ^ 64 := BitVec.isLt _

/-- A format-B command whose bytes have all arrived is its opcode, its length field and its payload. -/
theorem take_eq_header_append_data {op : Byte} {rest : List Byte}
    (hlen : headerBytes + operandLength (op :: rest) ≤ (op :: rest).length) :
    (op :: rest).take (headerBytes + operandLength (op :: rest)) =
      op :: (be64bytes (BitVec.ofNat 64 (operandData (op :: rest)).length) ++ operandData (op :: rest)) := by
  have hfield : (rest.take 8).length = 8 := by
    rw [List.length_cons, headerBytes] at hlen
    rw [List.length_take]
    omega
  have hvalue : BitVec.ofNat 64 (operandLength (op :: rest)) = be64 (rest.take 8) := 
    (BitVec.ofNat_toNat 64 _).trans (BitVec.setWidth_eq _)
  have hpos : headerBytes + operandLength (op :: rest) = 8 + operandLength (op :: rest) + 1 := by rw [headerBytes]; omega
  rw [operandData_length hlen, hvalue, be64bytes_be64 hfield, hpos, List.take_succ_cons, List.take_add]
  rfl

/-- Bytes that decode to a command start with its encoding, and the command is well formed. -/
theorem decode_cmd_inv {s : List Byte} {i : Instr} {n : Nat} (h : decode s = .cmd i n) :
    i.WellFormed ∧ n ≤ s.length ∧ s.take n = encode i := by
  rcases decode_eq_cmd_iff.mp h with
    ⟨rest, rfl, rfl, rfl⟩ | ⟨rest, rfl, rfl, rfl⟩ | ⟨rest, rfl, -, rfl, hlen, rfl⟩ | ⟨rest, rfl, -, rfl, hlen, rfl⟩
  · exact ⟨by decide, by simp, rfl⟩
  · exact ⟨by decide, by simp, rfl⟩
  · exact ⟨(operandData_length hlen).trans_lt (operandLength_lt _), hlen, take_eq_header_append_data hlen⟩
  · exact ⟨(operandData_length hlen).trans_lt (operandLength_lt _), hlen, take_eq_header_append_data hlen⟩

/-- Settles O8: the four commands the decoder answers, format B by the header and the payload it took. -/
theorem decodedBytesAreTheCommandsEncoding : Obligations.DecodedBytesAreTheCommandsEncoding := by
  intro s i n h
  obtain ⟨hwf, hle, htake⟩ := decode_cmd_inv h
  exact ⟨hwf, decode_cmd_length h, hle, htake⟩

/-- A decoded command is its encoding followed by the rest of the bytes. -/
theorem eq_encode_append_drop {s : List Byte} {i : Instr} {n : Nat} (h : decode s = .cmd i n) : s = encode i ++ s.drop n := by
  obtain ⟨-, -, htake⟩ := decode_cmd_inv h
  rw [← htake, List.take_append_drop]

/-- Bytes that decode to a command decode to it whatever follows them. -/
theorem decode_append_of_cmd {s : List Byte} {i : Instr} {n : Nat} (h : decode s = .cmd i n) (more : List Byte) :
    decode (s ++ more) = .cmd i n := by
  obtain ⟨hwf, -, -⟩ := decode_cmd_inv h
  rw [eq_encode_append_drop h, List.append_assoc, decode_encode i _ hwf, decode_cmd_length h]

/-- Settles O11: a command's encoding decodes to it whatever follows, and an illegal opcode is settled by the first byte. -/
theorem laterBytesDoNotChangeAVerdict : Obligations.LaterBytesDoNotChangeAVerdict := by
  refine fun s more => ⟨fun i n h => decode_append_of_cmd h more, fun op h => ?_⟩
  obtain ⟨rest, rfl, hop⟩ := decode_eq_illegal_iff.mp h
  exact decode_eq_illegal_iff.mpr ⟨rest ++ more, rfl, hop⟩

/-- Settles O9: the decoder computes each of the nine verdicts. -/
theorem writtenOutWordsDecode : Obligations.WrittenOutWordsDecode := by
  unfold Obligations.WrittenOutWordsDecode
  decide

end Sys2Proof
end

section
/-! PROOFS. The statements of spec/20_memory.md about the pending buffer: MemRead and MemWrite, and the canonical form under every
command (notes/assumptions/1.md). -/

namespace Sys2Proof

open Sys2Proof.Machine

namespace Machine

/-! MemRead (R38) -/

/-- Byte k of a value, counted from the most significant. -/
theorem splitBytes_getElem {n : Nat} (v : BitVec (8 * n)) {k : Nat} (hk : k < n) :
    (splitBytes v)[k]'(by simpa using hk) = v.extractLsb' (8 * (n - k) - 8) 8 := by
  simp [splitBytes]

theorem memRead_of_readBytes {m : Memory} {addr n : Nat} {v : Vector Byte n} (h : readBytes m addr n = .ok v) :
    memRead m addr n = .ok (joinBytes v.toList) := by
  simp only [memRead, h]

/-- MemRead answers the value whose bytes the buffer holds, and answers only where it holds them. -/
theorem memRead_eq_ok_iff {m : Memory} {addr n : Nat} {v : BitVec (8 * n)} :
    memRead m addr n = .ok v ↔
      addr + n ≤ 64 ∧ ∀ k, k < n → m.readByte (addr + k) = some (v.extractLsb' (8 * (n - k) - 8) 8) := by
  constructor
  · intro h
    unfold memRead at h
    split at h
    · next bytes hread =>
      obtain rfl := Except.ok.inj h
      obtain ⟨hrange, hbytes⟩ := readBytes_eq_ok.mp hread
      refine ⟨hrange, fun k hk => ?_⟩
      rw [hbytes k hk, ← splitBytes_getElem _ hk]
      simp only [splitBytes_joinBytes bytes.length_toList, Vector.getElem_toList]
    · cases h
  · rintro ⟨hrange, hbytes⟩
    have hread : readBytes m addr n = .ok ⟨(splitBytes v).toArray, by simp⟩ :=
      readBytes_eq_ok.mpr ⟨hrange, fun k hk => (hbytes k hk).trans (congrArg some (splitBytes_getElem v hk).symm)⟩
    rw [memRead_of_readBytes hread, Vector.toList_mk, joinBytes_splitBytes]

theorem readBytes_outside {m : Memory} {addr n : Nat} (h : 64 < addr + n) :
    readBytes m addr n = .error (.bufferOffsetOutOfRange addr n) := by
  unfold readBytes
  exact if_neg (Nat.not_le.mpr h)

/-- Settles O46: the equivalence of MemRead, and the range check it starts with. -/
theorem memReadJoinsBytesBigEndian : Obligations.MemReadJoinsBytesBigEndian := by
  refine fun m addr n => ⟨fun v => memRead_eq_ok_iff, fun h => ?_⟩
  simp only [memRead, readBytes_outside h]

/-! MemWrite (R39) -/

theorem memWrite_eq (m : Memory) (addr n : Nat) (v : BitVec (8 * n)) :
    memWrite m addr n v =
      if addr + n ≤ 64 then .ok (writeBytesFrom m addr (splitBytes v)) else .error (.bufferOffsetOutOfRange addr n) := by
  rw [memWrite, writeBytes_eq, splitBytes_length]

/-- Settles O47: what the stored bytes read as, and the range check MemWrite starts with. -/
theorem memWriteStoresBytesBigEndian : Obligations.MemWriteStoresBytesBigEndian := by
  intro m addr n v
  rw [memWrite_eq]
  refine ⟨fun hrange => ?_, fun h => if_neg (Nat.not_le.mpr h)⟩
  rw [if_pos hrange]
  refine ⟨_, rfl, fun hm => writeBytesFrom_wf _ hm (by simpa using hrange), fun a => ?_⟩
  rw [readByte_writeBytesFrom, splitBytes_length]
  split
  · next ha =>
    have hk : a - addr < n := by omega
    rw [List.getElem?_eq_getElem (by simpa using hk), splitBytes_getElem v hk]
  · rfl

/-! A word written byte by byte (R40) -/

/-- Four bytes joined are their big-endian word. -/
theorem joinBytes_four (b0 b1 b2 b3 : Byte) : joinBytes (n := 4) [b0, b1, b2, b3] = be32 b0 b1 b2 b3 := by
  simp [joinBytes, be32, BitVec.shiftLeft_or_distrib, ← BitVec.shiftLeft_add]

/-- Reading a word whose four bytes the buffer holds. -/
theorem memRead_word {m : Memory} {addr : Nat} {b0 b1 b2 b3 : Byte} (hrange : addr + 4 ≤ 64)
    (h : ∀ (j : Nat) (hj : j < 4), m.readByte (addr + j) = some #v[b0, b1, b2, b3][j]) :
    memRead m addr 4 = .ok (be32 b0 b1 b2 b3) := by
  rw [memRead_of_readBytes (readBytes_eq_ok.mpr ⟨hrange, h⟩)]
  exact congrArg Except.ok (joinBytes_four b0 b1 b2 b3)

/-- Settles O48: the four stores are one store of four bytes, which the reads of the word find. -/
theorem bytesWrittenReadBackAsAWord : Obligations.BytesWrittenReadBackAsAWord := by
  intro m t b0 b1 b2 b3 ht
  have hstore (m : Memory) {k : Nat} (b : Byte) (hk : k < 4) :
      memWrite m (4 * t + k) 1 b = .ok (m.writeByte (4 * t + k) b) := by
    rw [memWrite_byte, if_pos (by omega)]
  refine ⟨_, _, _, _, hstore m b0 (k := 0) (by decide), hstore _ b1 (by decide), hstore _ b2 (by decide),
    hstore _ b3 (by decide), memRead_word (by omega) fun j hj => ?_⟩
  have hread := readByte_writeBytesFrom m (4 * t) [b0, b1, b2, b3] (4 * t + j)
  rw [if_pos (by simpa using hj), Nat.add_sub_cancel_left, List.getElem?_eq_getElem (by simpa using hj)] at hread
  exact hread

/-! The canonical form under every command -/

theorem flush_wf {h h' : Hasher} (he : flush h = .ok h') : h'.buf.wf := by
  unfold flush at he
  split at he
  · cases he
    exact Memory.empty_wf
  · cases he

theorem absorbByte_wf {h h' : Hasher} {b : Byte} (hwf : h.buf.wf) (he : absorbByte h b = .ok h') : h'.buf.wf := by
  unfold absorbByte at he
  split at he
  · next hw =>
    split at he
    · exact flush_wf he
    · cases he
      exact memWrite_wf hwf hw
  · cases he

theorem absorb_wf {h h' : Hasher} {data : List Byte} (hwf : h.buf.wf) (he : absorb h data = .ok h') : h'.buf.wf := by
  induction data generalizing h with
  | nil =>
    cases he
    exact hwf
  | cons b bs ih =>
    unfold absorb at he
    split at he
    · next hb => exact ih (absorbByte_wf hwf hb) he
    · cases he

theorem updatePath_wf {h h' : Hasher} {data : List Byte} (hwf : h.buf.wf) (he : updatePath h data = .ok h') : h'.buf.wf :=
  absorb_wf (h := (countBits h data.length).beginUpdate) hwf he

/-- Settles O49: UPDATE stores inside the buffer or flushes it; INIT and FINALIZE leave it empty; HASH leaves it. -/
theorem commandsKeepTheCanonicalBuffer : Obligations.CommandsKeepTheCanonicalBuffer := by
  intro i s t hwf h
  rcases exec_eq_next h with ⟨-, rfl⟩ | ⟨_, _, -, he, rfl⟩ | ⟨_, _, -, he, rfl⟩ | ⟨_, _, -, -, rfl⟩
  · exact Memory.empty_wf
  · exact updatePath_wf hwf he
  · rw [finalizeHasher_eq_reset he]
    exact Memory.empty_wf
  · exact hwf

end Machine

end Sys2Proof
end

section
/-! PROOFS. The statements about what every command and every step keep (spec/10_state.md sections 3 and 6, spec/40_commands.md
section 6). First what a command emits and that it reads nothing but its own hasher context; then the invariants and the phase. -/

namespace Sys2Proof

open Sys2Proof.Machine

namespace Machine

/-! What a command emits, and what it depends on (R34, R62) -/

/-- The responses a command can give: none, or one serialized digest. -/
def IsResponseOf (out : List Byte) : Instr → Prop
  | .init => out = []
  | .update _ => out = []
  | .finalize => ∃ H, out = serialize H
  | .hash _ => ∃ H, out = serialize H

/-- The number of bytes of a command's response. -/
def responseLength : Instr → Nat
  | .init => 0
  | .update _ => 0
  | .finalize => 64
  | .hash _ => 64

theorem IsResponseOf.length {out : List Byte} {i : Instr} (h : IsResponseOf out i) : out.length = responseLength i := by
  cases i with
  | init => exact congrArg List.length h
  | update data => exact congrArg List.length h
  | finalize => obtain ⟨H, rfl⟩ := h; exact serialize_length H
  | hash data => obtain ⟨H, rfl⟩ := h; exact serialize_length H

theorem IsResponseOf.hex {out : List Byte} {i : Instr} (h : IsResponseOf out i) : ∀ b ∈ out, isHexCode b = true := by
  have hnil : out = [] → ∀ b ∈ out, isHexCode b = true := by rintro rfl; simp
  cases i with
  | init => exact hnil h
  | update data => exact hnil h
  | finalize => obtain ⟨H, rfl⟩ := h; exact serialize_hex H
  | hash data => obtain ⟨H, rfl⟩ := h; exact serialize_hex H

theorem finalizeHasher_eq_serialize {h h' : Hasher} {out : List Byte} (he : finalizeHasher h = .ok (out, h')) :
    ∃ H, out = serialize H := by
  unfold finalizeHasher at he
  split at he
  · next p _ =>
    cases he
    exact ⟨p.H, rfl⟩
  · cases he

/-- What a command does is a new hasher context and a response; both depend on the context it finds and on nothing else. -/
theorem exec_local {i : Instr} {s t : State} (h : exec i s = .next t) :
    ∃ out, IsResponseOf out i ∧ t = { s with hasher := t.hasher, resp := s.resp ++ out } ∧
      ∀ s' : State, s'.hasher = s.hasher → exec i s' = .next { s' with hasher := t.hasher, resp := s'.resp ++ out } := by
  rcases exec_eq_next h with ⟨rfl, rfl⟩ | ⟨data, h', rfl, he, rfl⟩ | ⟨out, h', rfl, he, rfl⟩ | ⟨data, out, rfl, he, rfl⟩
  · exact ⟨[], rfl, by simp [resetInstance], fun s' _ => by simp [exec_init, resetInstance]⟩
  · refine ⟨[], rfl, by simp, fun s' hs => ?_⟩
    rw [exec_update_of_ok (hs ▸ he), List.append_nil]
  · exact ⟨out, finalizeHasher_eq_serialize he, rfl, fun s' hs => exec_finalize_of_ok (hs ▸ he)⟩
  · refine ⟨out, ⟨_, Except.ok.inj (he.symm.trans (hashMessage_eq data))⟩, rfl, fun s' hs => ?_⟩
    rw [exec_hash_of_ok he, emit_hasher, ← hs]
    rfl

/-! Completion and the phase (R77, R78) -/

/-- In a state whose buffer and fill level agree every command completes, leaves them in agreement and the phase as R77 says. -/
theorem exec_of_buffered (i : Instr) {s : State} (hb : s.hasher.Buffered) :
    ∃ t, exec i s = .next t ∧ t.hasher.Buffered ∧ t.hasher.phase = s.hasher.phase.after i := by
  cases i with
  | init => exact ⟨_, exec_init s, Hasher.reset_buffered, rfl⟩
  | update data =>
    have he := updatePath_eq hb data
    exact ⟨_, exec_update_of_ok he, updatePath_buffered hb he, rfl⟩
  | finalize => exact ⟨_, exec_finalize_of_ok (finalizeHasher_eq hb), Hasher.reset_buffered, rfl⟩
  | hash data => exact ⟨_, exec_hash data s, hb, rfl⟩

/-- Settles O53: the phase of each command's next state, and the table itself. -/
theorem phaseFollowsTheStateMachine : Obligations.PhaseFollowsTheStateMachine := by
  refine ⟨fun s i hb => ?_, fun _ _ => ⟨rfl, rfl, rfl, rfl⟩⟩
  obtain ⟨t, h, -, hphase⟩ := exec_of_buffered i hb
  exact ⟨t, h, hphase⟩

/-- The update path and the finalizer set the phase before they read the context, so INIT, UPDATE and FINALIZE give one outcome from
every phase. -/
theorem exec_withPhase_of_ne_hash {i : Instr} (hi : ∀ data, i ≠ .hash data) (p : Phase) (s : State) :
    exec i (withPhase p s) = exec i s := by
  cases i with
  | init => rfl
  | update data => rfl
  | finalize => rfl
  | hash data => exact absurd rfl (hi data)

/-- Settles O54: HASH leaves the phase as it is; the other commands give one outcome from every phase. -/
theorem noEffectDependsOnThePhase : Obligations.NoEffectDependsOnThePhase := by
  intro i p s
  by_cases hi : ∃ data, i = .hash data
  · obtain ⟨data, rfl⟩ := hi
    simp only [exec_hash, reduceCtorEq, false_implies, implies_true, and_true, Host.Outcome.next.injEq]
    rintro t rfl
    exact ⟨_, rfl, rfl⟩
  · rw [exec_withPhase_of_ne_hash (not_exists.mp hi)]
    exact ⟨fun t h => ⟨t, h, rfl⟩, fun f h => h⟩

/-! The invariant of a hasher context (R19, R23, R25, R31) -/

theorem Hasher.reset_inv : Hasher.reset.Inv :=
  ⟨Hasher.reset_buffered, rfl, rfl, by decide, fun _ => rfl⟩

/-- An update counts whole bytes, and counts as many as it absorbs. -/
theorem updatePath_inv {h h' : Hasher} {data : List Byte} (hi : h.Inv) (he : updatePath h data = .ok h') : h'.Inv := by
  have hphase := updatePath_phase he
  have hb' := updatePath_buffered hi.buffered he
  rw [updatePath_eq hi.buffered] at he
  cases he
  have hbytes := hi.wholeBytes
  have hcount := hi.fillCounts
  refine ⟨hb', ?_, ?_, by simp, by simp⟩
  · simp only [BitVec.toNat_add, BitVec.toNat_ofNat]
    omega
  · simp only [BitVec.toNat_add, BitVec.toNat_ofNat]
    omega

theorem exec_hasher_inv {i : Instr} {s t : State} (hi : s.hasher.Inv) (h : exec i s = .next t) : t.hasher.Inv := by
  rcases exec_eq_next h with ⟨-, rfl⟩ | ⟨_, _, -, he, rfl⟩ | ⟨_, _, -, he, rfl⟩ | ⟨_, _, -, -, rfl⟩
  · exact Hasher.reset_inv
  · exact updatePath_inv hi he
  · rw [finalizeHasher_eq_reset he]
    exact Hasher.reset_inv
  · exact hi

/-! The invariant of the machine (R21, R34, R88, R107) -/

theorem powerOn_inv (stream : List Byte) : (powerOn stream).Inv where
  hasher := Hasher.reset_inv
  cp_le := Nat.zero_le _
  resp_length := rfl
  resp_hex := by simp
  mark := rfl
  record := by simp

/-- Settles O2: the reset state is the power-on state on the empty stream. -/
theorem powerOnMeetsTheInvariant : Obligations.PowerOnMeetsTheInvariant := ⟨powerOn_inv [], powerOn_inv⟩

/-- A step that takes a refusal keeps the invariant: it records the illegal byte and the pointer it stands at. -/
theorem raiseRefuse_inv {s : State} {op : Byte} (hi : s.Inv) (hd : decode (remaining s) = .illegal op) :
    (raiseRefuse op s).Inv where
  hasher := hi.hasher
  cp_le := hi.cp_le
  resp_length := hi.resp_length
  resp_hex := hi.resp_hex
  mark := rfl
  record := by
    intro r hr
    cases hr
    exact ⟨rfl, hd⟩

/-- A decoded command's bytes are in the stream. -/
theorem cp_add_le_of_cmd {s : State} {i : Instr} {n : Nat} (hcp : s.cp ≤ s.stream.length) (hd : decode (remaining s) = .cmd i n) :
    s.cp + n ≤ s.stream.length := by
  obtain ⟨-, hle, -⟩ := decode_cmd_inv hd
  rw [remaining, List.length_drop] at hle
  omega

/-- A step that runs a command keeps the invariant: the context keeps its own, and the response is whole digests. -/
theorem cmd_step_inv {s u : State} {i : Instr} {n : Nat} (hi : s.Inv) (hr : s.refused = false)
    (hd : decode (remaining s) = .cmd i n) (h : exec i s = .next u) : State.Inv { u with cp := u.cp + n } := by
  have hhasher := exec_hasher_inv hi.hasher h
  obtain ⟨hstream, hcp, hrefused, hrecorded⟩ := exec_frame h
  obtain ⟨out, hout, hu, -⟩ := exec_local h
  have hresp : u.resp = s.resp ++ out := congrArg State.resp hu
  have hnone : s.recorded = none := by simpa [hr] using hi.mark
  refine ⟨hhasher, ?_, ?_, ?_, ?_, ?_⟩
  · simpa only [hstream, hcp] using cp_add_le_of_cmd hi.cp_le hd
  · have hlen := hout.length
    have hold := hi.resp_length
    simp only [hresp, List.length_append, hlen]
    cases i <;> simp only [responseLength] <;> omega
  · simp only [hresp, List.mem_append]
    exact fun b hb => hb.elim (hi.resp_hex b) (hout.hex b)
  · simp only [hrefused, hrecorded, hr, hnone, Option.isSome_none]
  · simp [hrecorded, hnone]

/-- Settles O50: a step runs a command or takes a refusal, and each keeps the invariant. -/
theorem stepKeepsTheInvariant : Obligations.StepKeepsTheInvariant := by
  intro s t hi h
  obtain ⟨hr, ⟨i, n, u, hd, hu, rfl⟩ | ⟨op, hd, rfl⟩⟩ := step_eq_next h
  · exact cmd_step_inv hi hr hd hu
  · exact raiseRefuse_inv hi hd

/-- Settles O51: the commands complete where buffer and fill level agree, and a command is its new context and its response. -/
theorem everyCommandCompletesBetweenCommands : Obligations.EveryCommandCompletesBetweenCommands := by
  intro s i hi _
  obtain ⟨t, h, -, -⟩ := exec_of_buffered i hi.hasher.buffered
  obtain ⟨out, hout, ht, -⟩ := exec_local h
  refine ⟨t, out, h, exec_hasher_inv hi.hasher h, ht, hout.length.trans ?_⟩
  cases i <;> rfl

/-! The message history (R31) -/

/-- Settles O52: UPDATE extends the message held, FINALIZE emits its digest, and INIT and FINALIZE leave the reset context, which
holds the empty message. -/
theorem commandsKeepTheMessageHistory : Obligations.CommandsKeepTheMessageHistory := by
  refine ⟨fun _ => Hasher.reset_holds_nil, fun s m i hm => ?_⟩
  cases i with
  | init => exact ⟨_, exec_init s, Hasher.reset_holds_nil, (List.append_nil _).symm⟩
  | update data =>
    obtain ⟨h', he, hm'⟩ := exec_update_of_holds hm data
    exact ⟨_, he, hm', (List.append_nil _).symm⟩
  | finalize => exact ⟨_, exec_finalize_of_holds hm, Hasher.reset_holds_nil, rfl⟩
  | hash data => exact ⟨_, exec_hash data s, hm, rfl⟩

end Machine

end Sys2Proof
end

section
/-! PROOFS. The statements about the command step: spec/40_commands.md sections 1, 2 and 7, the two streams
(spec/20_memory.md section 1), streams of commands (spec/20_memory.md section 5), the idle block (spec/60_exceptions.md section 5),
the first command (spec/70_reset_and_hazards.md section 2) and several blocks side by side (spec/20_memory.md section 5). -/

namespace Sys2Proof

open Sys2Proof.Machine

namespace Machine

/-! The step, case by case (R66) -/

/-- Settles O12: the step's own rules, one for each verdict. -/
theorem stepRunsTheDecodedCommand : Obligations.StepRunsTheDecodedCommand := by
  refine ⟨fun s hr => ⟨fun i n u hd hu => ?_, fun i n f hd hf => ?_, step_of_done hr, step_of_incomplete hr,
    fun op => step_of_illegal hr⟩, fun s => step_of_refused⟩
  · rw [step_of_cmd hr hd, hu, advance_next]
  · rw [step_of_cmd hr hd, hf, advance_fault]

/-- Settles O20: INIT's next state is the reset context in the state it finds. -/
theorem initResetsTheInstance : Obligations.InitResetsTheInstance := fun s =>
  ⟨_, exec_init s, rfl, Hasher.reset_H, Hasher.reset_fill, Hasher.reset_bitlen, Hasher.reset_phase, Memory.readByte_empty, rfl⟩

/-- A step that leaves the mark clear has run a command: it is the command's new context and response, and the pointer's move. -/
theorem step_cmd_of_not_refused {s t : State} (h : step s = .next t) (ht : t.refused = false) :
    ∃ i n u, s.refused = false ∧ decode (remaining s) = .cmd i n ∧ exec i s = .next u ∧ t = { u with cp := u.cp + n } := by
  obtain ⟨hr, ⟨i, n, u, hd, hu, rfl⟩ | ⟨op, -, rfl⟩⟩ := step_eq_next h
  · exact ⟨i, n, u, hr, hd, hu, rfl⟩
  · simp at ht

/-- The command step in another state that has the same context and the same bytes to decode. -/
theorem step_cmd_local {s u : State} {i : Instr} {n : Nat} (hd : decode (remaining s) = .cmd i n) (hu : exec i s = .next u) :
    ∃ out, IsResponseOf out i ∧ u = { s with hasher := u.hasher, resp := s.resp ++ out } ∧
      ∀ s' : State, s'.refused = false → s'.hasher = s.hasher → remaining s' = remaining s →
        step s' = .next { s' with hasher := u.hasher, resp := s'.resp ++ out, cp := s'.cp + n } := by
  obtain ⟨out, hout, hframe, hlocal⟩ := exec_local hu
  refine ⟨out, hout, hframe, fun s' hr' hh' hrem' => ?_⟩
  rw [step_of_cmd hr' (hrem' ▸ hd), hlocal s' hh', advance_next]

/-! The two streams (R33, R34) -/

theorem step_stream {s t : State} (h : step s = .next t) : t.stream = s.stream := by
  obtain ⟨-, ⟨i, n, u, -, hu, rfl⟩ | ⟨op, -, rfl⟩⟩ := step_eq_next h
  · obtain ⟨hstream, -⟩ := exec_frame hu
    exact hstream
  · rfl

/-- Settles O16: no step writes the stream, and a command's step reads of it only what is left to decode. -/
theorem commandStreamIsReadOnceAndNeverWritten : Obligations.CommandStreamIsReadOnceAndNeverWritten := by
  refine fun s t h => ⟨step_stream h, fun ht consumed => ?_⟩
  obtain ⟨i, n, u, hr, hd, hu, rfl⟩ := step_cmd_of_not_refused h ht
  obtain ⟨out, -, hframe, hlocal⟩ := step_cmd_local hd hu
  rw [hlocal { s with stream := consumed ++ remaining s, cp := consumed.length } hr rfl (List.drop_left ..), hframe]
  simp

/-- Settles O17: a command appends its response and a refusal nothing, and neither reads the responses before. -/
theorem responsesAreAppendedAndNeverReadBack : Obligations.ResponsesAreAppendedAndNeverReadBack := by
  intro s t h
  obtain ⟨hr, ⟨i, n, u, hd, hu, rfl⟩ | ⟨op, hd, rfl⟩⟩ := step_eq_next h
  · obtain ⟨out, hout, hframe, hlocal⟩ := step_cmd_local hd hu
    refine ⟨out, congrArg State.resp hframe, ?_, fun r => ?_⟩
    · cases i with
      | init => exact .inl hout
      | update data => exact .inl hout
      | finalize => exact .inr ⟨hout.length, _, n, hd, .inl rfl⟩
      | hash data => exact .inr ⟨hout.length, _, n, hd, .inr ⟨data, rfl⟩⟩
    · rw [hlocal { s with resp := r } hr rfl rfl, hframe]
  · refine ⟨[], (List.append_nil _).symm, .inl rfl, fun r => ?_⟩
    rw [step_of_illegal (s := { s with resp := r }) hr hd, List.append_nil]
    rfl

/-! Streams of commands -/

/-- Commands executed one after the other do not read the command pointer. -/
theorem execAll_cp {is : List Instr} {s t : State} (h : execAll is s = .next t) (c : Nat) :
    execAll is { s with cp := c } = .next { t with cp := c } := by
  induction is generalizing s with
  | nil =>
    cases h
    rfl
  | cons i is ih =>
    rw [execAll] at h ⊢
    split at h
    · next u hu =>
      obtain ⟨out, -, hframe, hlocal⟩ := exec_local hu
      rw [hlocal { s with cp := c } rfl]
      have hrest := ih h
      rw [hframe] at hrest
      exact hrest
    · cases h
    · cases h

/-- A step where the bytes left start with a command's encoding. -/
theorem step_of_encoded {s : State} {i : Instr} {rest : List Byte} (hr : s.refused = false) (hi : i.WellFormed)
    (hrem : remaining s = encode i ++ rest) : step s = advance (encode i).length (exec i s) := by
  rw [encode_length]
  exact step_of_cmd hr (hrem ▸ decode_encode i rest hi)

/-- Past the bytes decoded, the rest is left. -/
theorem remaining_advanced {s t : State} {xs rest : List Byte} (hstream : t.stream = s.stream) (hcp : t.cp = s.cp + xs.length)
    (hrem : remaining s = xs ++ rest) : remaining t = rest := by
  rw [remaining, hstream, hcp, ← List.drop_drop, ← remaining, hrem, List.drop_left]

/-- The run on a stream that spells commands: one step for each, in order, with the pointer past the last. -/
theorem runSteps_of_encoded (is : List Instr) {s : State} {rest : List Byte} (hwf : ∀ i ∈ is, i.WellFormed)
    (hr : s.refused = false) (hb : s.hasher.Buffered) (hrem : remaining s = is.flatMap encode ++ rest) :
    ∃ t, execAll is s = .next t ∧ t.stream = s.stream ∧ t.refused = false ∧
      runSteps is.length s = .next { t with cp := s.cp + (is.flatMap encode).length } := by
  induction is generalizing s with
  | nil => exact ⟨s, rfl, rfl, hr, rfl⟩
  | cons i is ih =>
    obtain ⟨u, hu, hbu, -⟩ := exec_of_buffered i hb
    obtain ⟨hstream, hcp, hrefused, -⟩ := exec_frame hu
    rw [List.flatMap_cons, List.append_assoc] at hrem
    have hstep : step s = .next { u with cp := s.cp + (encode i).length } := by
      rw [step_of_encoded hr (hwf i List.mem_cons_self) hrem, hu, advance_next, hcp]
    obtain ⟨t, hall, htstream, htrefused, hrun⟩ := ih (s := { u with cp := s.cp + (encode i).length })
      (fun j hj => hwf j (List.mem_cons_of_mem i hj)) (hrefused.trans hr) hbu (remaining_advanced hstream rfl hrem)
    refine ⟨{ t with cp := u.cp }, ?_, htstream.trans hstream, htrefused, ?_⟩
    · rw [execAll, hu]
      exact execAll_cp hall u.cp
    · rw [List.length_cons, runSteps, hstep]
      simpa only [List.flatMap_cons, List.length_append, Nat.add_assoc] using hrun

theorem finished_iff {s : State} : Finished s ↔ s.refused = false ∧ remaining s = [] :=
  and_congr_right fun _ => decode_eq_done_iff

/-- A finished run has no step (R66, R124). -/
theorem Finished.step_eq_idle {s : State} (h : Finished s) : step s = .fault .idle := by
  obtain ⟨hr, hd⟩ := h
  exact step_of_done hr hd

/-- Settles O18: each step runs the next command of the list, and an empty rest is the End verdict. -/
theorem streamOfCommandsRunsInOrder : Obligations.StreamOfCommandsRunsInOrder := by
  intro is s rest hwf hr hb hrem
  obtain ⟨t, hall, hstream, hrefused, hrun⟩ := runSteps_of_encoded is hwf hr hb hrem
  have hleft : remaining { t with cp := s.cp + (is.flatMap encode).length } = rest := remaining_advanced hstream rfl hrem
  refine ⟨t, _, hall, hrun, rfl, hleft, fun hrest => ?_⟩
  have hfin : Finished { t with cp := s.cp + (is.flatMap encode).length } := finished_iff.mpr ⟨hrefused, hleft.trans hrest⟩
  exact ⟨hfin, hfin.step_eq_idle⟩

/-- Settles O19: at End nothing is left, so what the host appends is all there is to decode. -/
theorem idleBlockResumesWhenBytesArrive : Obligations.IdleBlockResumesWhenBytesArrive := by
  refine fun s hfin hcp => ⟨hfin.step_eq_idle, fun i hi => ?_⟩
  obtain ⟨hr, hnil⟩ := finished_iff.mp hfin
  have hrem : remaining (hostAppend (encode i) s) = encode i ++ [] := by
    rw [remaining_hostAppend hcp, hnil, List.nil_append, List.append_nil]
  rw [step_of_encoded ((hostAppend_refused _ s).trans hr) hi hrem, encode_length]

/-! The first command (R123) -/

theorem remaining_powerOn (stream : List Byte) : remaining (powerOn stream) = stream := List.drop_zero

theorem step_powerOn_encoded {i : Instr} (hi : i.WellFormed) (rest : List Byte) :
    step (powerOn (encode i ++ rest)) = advance (commandLength i) (exec i (powerOn (encode i ++ rest))) := by
  rw [step_of_encoded (powerOn_refused _) hi (remaining_powerOn _), encode_length]

/-- Settles O4: the power-on context is the reset context, where every command completes and which holds the empty message. -/
theorem anyCommandMayComeFirst : Obligations.AnyCommandMayComeFirst := by
  refine ⟨fun i rest hi => ?_, fun rest => ?_, fun rest => ?_⟩
  · obtain ⟨t, h, -, -⟩ := exec_of_buffered i (s := powerOn (encode i ++ rest)) Hasher.reset_buffered
    obtain ⟨-, hcp, -, -⟩ := exec_frame h
    refine ⟨_, (step_powerOn_encoded hi rest).trans (congrArg (advance _) h), ?_⟩
    simp [hcp]
  · refine ⟨_, (step_powerOn_encoded (by decide) rest).trans
      (congrArg (advance _) (exec_finalize_of_holds (m := []) Hasher.reset_holds_nil)), sha256_nil⟩
  · rw [step_powerOn_encoded (by decide) rest, exec_init]
    rfl

/-! Several blocks side by side (R51) -/

/-- Everything a step of one block of several can do: it puts that block's own next state in its place. -/
theorem stepInstance_eq_next {n : Nat} {k : Fin n} {v w : Vector State n} :
    stepInstance k v = .next w ↔ ∃ t, step v[k.val] = .next t ∧ w = v.set k.val t := by
  unfold stepInstance
  cases step v[k.val] <;> simp [eq_comm]

/-- Settles O56: each block's step reads and writes its own place of the vector. -/
theorem instancesAreIndependent : Obligations.InstancesAreIndependent := by
  intro n k j v w h
  obtain ⟨t, ht, rfl⟩ := stepInstance_eq_next.mp h
  refine ⟨by simpa using ht, fun hjk => ?_⟩
  have hval : k.val ≠ j.val := fun he => hjk (Fin.ext he.symm)
  have hother : (v.set k.val t)[j.val] = v[j.val] := Vector.getElem_set_ne _ _ hval
  refine ⟨hother, fun x hx => ?_⟩
  obtain ⟨t', ht', rfl⟩ := stepInstance_eq_next.mp hx
  rw [hother] at ht'
  refine ⟨v.set j.val t', stepInstance_eq_next.mpr ⟨t', ht', rfl⟩, stepInstance_eq_next.mpr ⟨t, ?_, ?_⟩⟩
  · rw [Vector.getElem_set_ne _ _ hval.symm, ht]
  · exact Vector.set_comm _ _ hval

end Machine

end Sys2Proof
end

section
/-! PROOFS. The statements of spec/40_commands.md section 3 about UPDATE: its whole next state, the cases of one short of a block and
of exactly a block, the associativity law, and the chunk loop of R69. -/

namespace Sys2Proof

open Sys2Proof.Machine

namespace Machine

/-! The whole next state (R68, R20) -/

theorem exec_update_of_buffered {s : State} (hb : s.hasher.Buffered) (data : List Byte) :
    exec (.update data) s = .next
      { s with
        hasher :=
          { H := digestOver s.hasher.H (s.hasher.buf.bytes ++ data)
            buf := Memory.ofBytes (leftover (s.hasher.buf.bytes ++ data))
            fill := (s.hasher.fill + data.length) % 64
            bitlen := s.hasher.bitlen + BitVec.ofNat 64 (8 * data.length)
            phase := .accumulating } } :=
  exec_update_of_ok (updatePath_eq hb data)

theorem add_ofNat_eq_ofNat_toNat_add (c : Count) (k : Nat) : c + BitVec.ofNat 64 k = BitVec.ofNat 64 (c.toNat + k) := by
  rw [BitVec.ofNat_add, BitVec.ofNat_toNat, BitVec.setWidth_eq]

/-- Settles O21: the update path's own equation, with the wrapping sum of the counter written as one number. -/
theorem updateAbsorbsItsPayload : Obligations.UpdateAbsorbsItsPayload := by
  intro s data hb
  rw [exec_update_of_buffered hb, add_ofNat_eq_ofNat_toNat_add]

/-- Settles O24: nothing is absorbed and 0 is added to the counter. -/
theorem emptyUpdateChangesOnlyThePhase : Obligations.EmptyUpdateChangesOnlyThePhase := by
  intro s
  have hupdate : updatePath s.hasher [] = .ok { s.hasher with phase := .accumulating } := by
    simp [updatePath, absorb, countBits, Hasher.beginUpdate]
  exact exec_update_of_ok hupdate

/-- Settles O25: the counter in the next state of each command. -/
theorem bitCounterWrapsModulo2To64 : Obligations.BitCounterWrapsModulo2To64 := by
  refine ⟨fun s data hb => ⟨_, exec_update_of_buffered hb data, ?_⟩, fun s => ⟨_, exec_init s, rfl⟩,
    fun s hb => ⟨_, exec_finalize_of_ok (finalizeHasher_eq hb), rfl⟩, fun s data => ⟨_, exec_hash data s, rfl⟩⟩
  rw [add_ofNat_eq_ofNat_toNat_add, BitVec.toNat_ofNat]

/-! Short of a block, and exactly a block (R69) -/

/-- The buffered bytes by offset. -/
theorem Hasher.Buffered.getElem?_bytes {h : Hasher} (hb : h.Buffered) (a : Nat) : h.buf.bytes[a]? = h.buf.readByte a := by
  conv_rhs => rw [hb.buf_eq]
  rw [Memory.readByte_ofBytes]

/-- The buffered bytes followed by a payload, by offset. -/
theorem Hasher.Buffered.getElem?_bytes_append {h : Hasher} (hb : h.Buffered) (data : List Byte) (a : Nat) :
    (h.buf.bytes ++ data)[a]? = if a < h.fill then h.buf.readByte a else data[a - h.fill]? := by
  split
  · next ha => rw [List.getElem?_append_left (hb.length ▸ ha), hb.getElem?_bytes]
  · next ha => rw [List.getElem?_append_right (by rw [hb.length]; omega), hb.length]

/-- No byte at or above the fill level is stored. -/
theorem Hasher.Buffered.readByte_of_le {h : Hasher} (hb : h.Buffered) {a : Nat} (ha : h.fill ≤ a) : h.buf.readByte a = none := by
  rw [← hb.getElem?_bytes, List.getElem?_eq_none (hb.length ▸ ha)]

/-- Settles O22: the bytes complete no block, so all of them stay buffered behind the old ones. -/
theorem shortUpdateOnlyBuffers : Obligations.ShortUpdateOnlyBuffers := by
  intro s data hb hshort
  have hlen : (s.hasher.buf.bytes ++ data).length < 64 := by rwa [List.length_append, hb.length]
  refine ⟨_, exec_update_of_buffered hb data, rfl, digestOver_of_short _ hlen, Nat.mod_eq_of_lt hshort, rfl, rfl, fun a => ?_⟩
  simp only [leftover_of_short hlen, Memory.readByte_ofBytes, hb.getElem?_bytes_append]
  by_cases hold : a < s.hasher.fill
  · rw [if_pos hold, if_neg (by omega)]
  · rw [if_neg hold]
    split
    · rfl
    · rw [hb.readByte_of_le (Nat.not_lt.mp hold), List.getElem?_eq_none (by omega)]

/-- A message of one block is compressed once, and leaves nothing over. -/
theorem digestOver_block (H : Digest) {m : List Byte} (h : m.length = 64) : digestOver H m = compress H (wholeBlock m 0) := by
  simpa using digestOver_append_block H h []

/-- A block's bytes are the message's, where the message has them. -/
theorem some_wholeBlock_getElem {m : List Byte} {k j : Nat} (hj : j < 64) (hm : 64 * k + j < m.length) :
    some (wholeBlock m k)[j] = m[64 * k + j]? := by
  rw [wholeBlock_getElem m k j hj, List.getD_eq_getElem _ _ hm, List.getElem?_eq_getElem hm]

/-- Settles O23: the bytes are one block, in arrival order, and nothing is left over. -/
theorem fillingUpdateCompressesTheBlock : Obligations.FillingUpdateCompressesTheBlock := by
  intro s data hb hfull
  have hlen : (s.hasher.buf.bytes ++ data).length = 64 := by rwa [List.length_append, hb.length]
  refine ⟨_, wholeBlock (s.hasher.buf.bytes ++ data) 0, exec_update_of_buffered hb data, rfl, fun j hj => ?_,
    digestOver_block _ hlen, ?_, rfl, rfl, fun a => ?_⟩
  · rw [some_wholeBlock_getElem hj (by omega), Nat.mul_zero, Nat.zero_add, hb.getElem?_bytes_append]
  · simp only [hfull, Nat.mod_self]
  · have hnil : leftover (s.hasher.buf.bytes ++ data) = [] := leftover_eq_nil (by rw [hlen])
    simp only [hnil]
    exact Memory.readByte_empty a

/-! The associativity law -/

/-- Absorbing two payloads one after the other. -/
theorem absorb_append {h h' : Hasher} {x : List Byte} (hx : absorb h x = .ok h') (y : List Byte) :
    absorb h (x ++ y) = absorb h' y := by
  induction x generalizing h with
  | nil =>
    cases hx
    rfl
  | cons b bs ih =>
    rw [List.cons_append, absorb]
    rw [absorb] at hx
    split at hx
    · exact ih hx
    · cases hx

/-- After an update, the next update continues it. -/
theorem updatePath_append {h h' : Hasher} {x : List Byte} (hb : h.Buffered) (hx : updatePath h x = .ok h') (y : List Byte) :
    updatePath h (x ++ y) = updatePath h' y := by
  have hb' := updatePath_buffered hb hx
  rw [updatePath_eq hb] at hx
  cases hx
  rw [updatePath_eq hb, updatePath_eq hb']
  simp only [Memory.bytes_ofBytes, ← List.append_assoc, ← digestOver_append, ← leftover_append, List.length_append,
    Nat.mod_add_mod, Nat.add_assoc, Nat.mul_add, BitVec.ofNat_add, BitVec.add_assoc]

theorem exec_update_append {s t : State} {x : List Byte} (hb : s.hasher.Buffered) (h : exec (.update x) s = .next t)
    (y : List Byte) :
    exec (.update (x ++ y)) s = exec (.update y) t := by
  have hx := updatePath_eq hb x
  rw [exec_update_of_ok hx] at h
  cases h
  have hy := updatePath_eq (updatePath_buffered hb hx) y
  exact (exec_update_of_ok ((updatePath_append hb hx y).trans hy)).trans (exec_update_of_ok (s := { s with hasher := _ }) hy).symm

/-- Settles O26: both complete, and the second continues the first. -/
theorem consecutiveUpdatesAreOneUpdate : Obligations.ConsecutiveUpdatesAreOneUpdate := by
  intro s x y hb
  obtain ⟨t, hx, hbt, -⟩ := exec_of_buffered (.update x) hb
  obtain ⟨u, hy, -, -⟩ := exec_of_buffered (.update y) hbt
  exact ⟨t, u, hx, hy, (exec_update_append hb hx y).trans hy⟩

/-! The chunk loop (R69) -/

/-- Flushing a full buffer compresses it and empties it. -/
theorem flush_full {h : Hasher} {xs : List Byte} (hbuf : h.buf = Memory.ofBytes xs) (hlen : xs.length = 64) :
    flush h = .ok { h with H := digestOver h.H xs, buf := Memory.ofBytes (leftover xs), fill := 0 } := by
  have hnil : leftover xs = [] := leftover_eq_nil (by rw [hlen])
  simp only [flush, hbuf, readBytes_full hlen, hnil, digestOver_block _ hlen]
  rfl

/-- Storing bytes at the fill level appends them to the buffered ones. -/
theorem Hasher.Buffered.writeBytes_fill {h : Hasher} (hb : h.Buffered) {xs : List Byte} (hfit : h.fill + xs.length ≤ 64) :
    writeBytes h.buf h.fill xs = .ok (Memory.ofBytes (h.buf.bytes ++ xs)) := by
  rw [writeBytes_eq, if_pos hfit, ← hb.length, ← writeBytesFrom_ofBytes_end, ← hb.buf_eq]

/-- The length of the chunk that one turn of the loop copies (R69). -/
def chunkLength (h : Hasher) (data : List Byte) : Nat := min (64 - h.fill) data.length

/-- A chunk is absorbed as its bytes are one at a time, and the rest of the payload is handed back. -/
theorem absorbChunk_eq {h : Hasher} (hb : h.Buffered) (data : List Byte) :
    ∃ h', absorbChunk h data = .ok (h', data.drop (chunkLength h data)) ∧
      absorb h (data.take (chunkLength h data)) = .ok h' ∧ h'.Buffered := by
  have hlt := hb.fill_lt
  have hc : chunkLength h data = min (64 - h.fill) data.length := rfl
  have htake : (data.take (chunkLength h data)).length = chunkLength h data := by
    rw [List.length_take]
    omega
  have hlen : (h.buf.bytes ++ data.take (chunkLength h data)).length = h.fill + chunkLength h data := by
    rw [List.length_append, hb.length, htake]
  have hwrite := hb.writeBytes_fill (xs := data.take (chunkLength h data)) (by omega)
  refine ⟨_, ?_, absorb_eq hb _,
    Hasher.buffered_of_bytes rfl (by rw [leftover_length, hlen, htake]) (by rw [leftover_length]; omega)⟩
  rw [htake]
  simp only [absorbChunk, ← hc, hwrite]
  by_cases hfull : h.fill + chunkLength h data = 64
  · rw [if_pos hfull, flush_full rfl (hlen.trans hfull), hfull]
  · have hshort : h.fill + chunkLength h data < 64 := by omega
    rw [if_neg hfull, digestOver_of_short _ (hlen.trans_lt hshort), leftover_of_short (hlen.trans_lt hshort),
      Nat.mod_eq_of_lt hshort]

/-- The chunk loop with turns enough: each takes a byte or more. -/
theorem absorbChunks_eq_absorb {turns : Nat} {h : Hasher} {data : List Byte} (hb : h.Buffered) (hturns : data.length ≤ turns) :
    absorbChunks turns h data = absorb h data := by
  induction turns generalizing h data with
  | zero =>
    obtain rfl := List.eq_nil_of_length_eq_zero (Nat.le_zero.mp hturns)
    rfl
  | succ turns ih =>
    rw [absorbChunks]
    split
    · next hnil => rw [hnil, absorb]
    · next hne =>
      have hpos := List.length_pos_iff.mpr hne
      have hlt := hb.fill_lt
      obtain ⟨h', hchunk, htake, hb'⟩ := absorbChunk_eq hb data
      have hrest : (data.drop (chunkLength h data)).length ≤ turns := by
        rw [List.length_drop, chunkLength]
        omega
      simp only [hchunk]
      rw [ih hb' hrest, ← absorb_append htake, List.take_append_drop]

/-- Settles O27: the payload's length is turns enough. -/
theorem chunkLoopIsTheByteLoop : Obligations.ChunkLoopIsTheByteLoop := fun _ _ hb => absorbChunks_eq_absorb hb (Nat.le_refl _)

end Machine

end Sys2Proof
end

section
/-! PROOFS. The statements of spec/41_padding_serializer.md section 1 and spec/40_commands.md sections 4 and 5 about the padding,
FINALIZE and HASH, and the transform counts of spec/70_reset_and_hazards.md section 5. -/

namespace Sys2Proof

open Sys2Proof.Machine

namespace Machine

/-! FINALIZE (R73) -/

/-- Settles O29: the finalizer's own equation. -/
theorem finalizeEmitsTheDigestAndResets : Obligations.FinalizeEmitsTheDigestAndResets := fun _ hb =>
  exec_finalize_of_ok (finalizeHasher_eq hb)

/-- Settles O30: the finalizer on a context that holds the message. -/
theorem finalizeEmitsTheMessagesDigest : Obligations.FinalizeEmitsTheMessagesDigest := fun _ _ hm => exec_finalize_of_holds hm

/-! HASH (R75, R76) -/

/-- Settles O36: the private context holds the payload when it is finalized. -/
theorem hashEmitsTheDigestAndLeavesTheInstance : Obligations.HashEmitsTheDigestAndLeavesTheInstance := fun s data =>
  exec_hash data s

theorem execAll_append {is js : List Instr} {s t : State} (h : execAll is s = .next t) :
    execAll (is ++ js) s = execAll js t := by
  induction is generalizing s with
  | nil =>
    cases h
    rfl
  | cons i is ih =>
    rw [List.cons_append, execAll]
    rw [execAll] at h
    split at h
    · exact ih h
    · cases h
    · cases h

/-- Settles O37: after INIT the UPDATEs hold the concatenation, and FINALIZE emits its digest, as HASH does. -/
theorem hashAgreesWithTheIncrementalPath : Obligations.HashAgreesWithTheIncrementalPath := by
  intro s s' parts
  obtain ⟨h', hall, hm⟩ := execAll_updates_of_holds (s := resetInstance s') Hasher.reset_holds_nil parts
  refine ⟨_, emit (sha256 parts.flatten) (resetInstance s'), sha256 parts.flatten, exec_hash _ s, rfl, serialize_length _, ?_,
    rfl⟩
  rw [execAll, exec_init]
  have hfin := exec_finalize_of_holds (s := { resetInstance s' with hasher := h' }) hm
  simp only [execAll_append hall, execAll, hfin]
  rfl

/-! The padded message (R79 to R85) -/

theorem pad_getD (L k : Nat) : (pad L).getD k 0 = if k = 0 then 0x80 else 0 := by
  cases k with
  | zero => rfl
  | succ k => simp [pad, zeros, List.getD_eq_getElem?_getD]

/-- A message with its padding and length field, by offset. -/
theorem padded_getD (m : List Byte) (len0 : Count) {L : Nat} (hL : L < 64) (j : Nat) :
    (m ++ pad L ++ lengthField len0).getD j 0 =
      if j < m.length then m.getD j 0
      else if j = m.length then 0x80
      else if j < m.length + padLen L then 0
      else (be64bytes len0).getD (j - (m.length + padLen L)) 0 := by
  have hlen : (m ++ pad L).length = m.length + padLen L := by rw [List.length_append, pad_length hL]
  have hpos := padLen_pos L hL
  by_cases hm : j < m.length
  · rw [if_pos hm, List.getD_append _ _ _ _ (by omega), List.getD_append _ _ _ _ hm]
  by_cases hpad : j < m.length + padLen L
  · rw [if_neg hm, List.getD_append _ _ _ _ (by omega), List.getD_append_right _ _ _ _ (by omega), pad_getD]
    by_cases h80 : j = m.length
    · rw [if_pos h80, if_pos (by omega)]
    · rw [if_neg h80, if_neg (by omega), if_pos hpad]
  · rw [if_neg hm, if_neg (by omega), if_neg hpad, List.getD_append_right _ _ _ _ (by omega), hlen, lengthField]

theorem wholeBlocks_of_length {m : List Byte} {n : Nat} (h : m.length = 64 * n) :
    wholeBlocks m = (List.range n).map (wholeBlock m) := by
  rw [wholeBlocks, h, Nat.mul_div_cancel_left _ (by decide)]

theorem padded_length {m : List Byte} (len0 : Count) (hm : m.length < 64) :
    (m ++ pad m.length ++ lengthField len0).length = if m.length < 56 then 64 else 128 := by
  rw [List.length_append, List.length_append, pad_length hm, lengthField_length, padded_total hm]

/-- Settles O34: the padded bytes by offset, and how many blocks they are, on each side of 56. -/
theorem finalBlocksHaveTheLayout : Obligations.FinalBlocksHaveTheLayout := by
  intro m len0 hm
  have hlen := padded_length len0 hm
  refine ⟨fun hle => ?_, fun hge => ?_⟩
  · rw [if_pos (by omega)] at hlen
    have hpad := padLen_of_lt (L := m.length) (by omega)
    refine ⟨wholeBlock (m ++ pad m.length ++ lengthField len0) 0, wholeBlocks_of_length (n := 1) hlen, fun j hj => ?_⟩
    have hend : m.length + padLen m.length = 56 := by omega
    rw [wholeBlock_getElem _ _ _ hj, Nat.mul_zero, Nat.zero_add, padded_getD m len0 hm, hend]
  · rw [if_neg (by omega)] at hlen
    have hpad := padLen_of_le hge
    have hend : m.length + padLen m.length = 120 := by omega
    refine ⟨wholeBlock (m ++ pad m.length ++ lengthField len0) 0, wholeBlock (m ++ pad m.length ++ lengthField len0) 1,
      wholeBlocks_of_length (n := 2) hlen, fun j hj => ?_, fun j hj => ?_⟩
    · rw [wholeBlock_getElem _ _ _ hj, Nat.mul_zero, Nat.zero_add, padded_getD m len0 hm, hend, if_pos (by omega : j < 120)]
    · rw [wholeBlock_getElem _ _ _ hj, padded_getD m len0 hm, hend, if_neg (by omega), if_neg (by omega)]
      by_cases hj56 : j < 56
      · rw [if_pos hj56, if_pos (by omega)]
      · have hoff : 64 * 1 + j - 120 = j - 56 := by omega
        rw [if_neg hj56, if_neg (by omega), hoff]

/-- Settles O35: the padding's 8 * padLen bits are a 1 and k zeros, and padLen is the least of its residue. -/
theorem paddedMessageIsTheStandards : Obligations.PaddedMessageIsTheStandards := by
  intro m
  have hL : m.length % 64 < 64 := Nat.mod_lt _ (by decide)
  have hpos := padLen_pos _ hL
  have hmod := add_padLen_mod hL
  have hzeros : (8 * padLen (m.length % 64) - 1 + 1) / 8 - 1 = padLen (m.length % 64) - 1 := by omega
  refine ⟨8 * padLen (m.length % 64) - 1, ?_, by omega, by omega, by omega, fun k' hk' => ?_, paddedMessage_length m⟩
  · rw [hzeros, paddedMessage, pad, lengthField, bitCount]
    simp
  · have hle := padLen_le_of_mod (p := (k' + 1) / 8) hL (by omega) (by omega)
    omega

/-! The counting path (R128) -/

/-- The counting path computes what the real path computes. -/
theorem absorbCounting_fst {h t : Hasher} {data : List Byte} {n : Nat} (he : absorbCounting h data = .ok (t, n)) :
    absorb h data = .ok t := by
  induction data generalizing h n with
  | nil =>
    cases he
    rfl
  | cons b bs ih =>
    rw [absorbCounting] at he
    rw [absorb]
    split at he
    · cases he
    · next h₁ hbyte =>
      simp only [hbyte]
      split at he
      · next hrest =>
        cases he
        exact ih hrest
      · cases he

/-- A context absorbs a transform for every 64 bytes, the buffered ones counted. -/
theorem absorbCounting_of_buffered {h t : Hasher} (hb : h.Buffered) {data : List Byte} (he : absorb h data = .ok t) :
    absorbCounting h data = .ok (t, (h.fill + data.length) / 64) := by
  have hlt := hb.fill_lt
  induction data generalizing h with
  | nil =>
    cases he
    rw [absorbCounting, List.length_nil, Nat.add_zero, Nat.div_eq_of_lt hlt]
  | cons b bs ih =>
    have hbyte := absorbByte_eq hb b
    have hb' : Hasher.Buffered _ := Hasher.buffered_of_bytes (h := { h with
          H := digestOver h.H (h.buf.bytes ++ [b])
          buf := Memory.ofBytes (leftover (h.buf.bytes ++ [b]))
          fill := (h.fill + 1) % 64 }) rfl (by simp [leftover_length, hb.length]) (by rw [leftover_length]; omega)
    rw [absorb, hbyte] at he
    have hrest := ih hb' he hb'.fill_lt
    have hcount : flushesOn h + ((h.fill + 1) % 64 + bs.length) / 64 = (h.fill + (bs.length + 1)) / 64 := by
      rw [flushesOn]
      split <;> omega
    simp only [absorbCounting, hbyte, hrest, hcount, List.length_cons]

theorem updateCounting_of_buffered {h t : Hasher} (hb : h.Buffered) {data : List Byte} (he : updatePath h data = .ok t) :
    updateCounting h data = .ok (t, (h.fill + data.length) / 64) :=
  absorbCounting_of_buffered (hb.countBits data.length).beginUpdate he

/-- The finalizer's two appends run one transform or two. -/
theorem padCounting_of_buffered {h : Hasher} (hb : h.Buffered) :
    ∃ t, padPath h = .ok t ∧ t.fill = 0 ∧ padCounting h = .ok (t, if h.fill < 56 then 1 else 2) := by
  have hlt := hb.fill_lt
  obtain ⟨h₁, hfirst, hfill⟩ :
      ∃ h₁, updatePath h.beginFinalize (pad h.fill) = .ok h₁ ∧ h₁.fill = (h.fill + padLen h.fill) % 64 :=
    ⟨_, updatePath_eq hb.beginFinalize _, by simp only [Hasher.beginFinalize_fill, pad_length hlt]⟩
  have hb₁ := updatePath_buffered hb.beginFinalize hfirst
  have hpath := padPath_eq hb
  have hcount : (h.fill + padLen h.fill) / 64 + ((h.fill + padLen h.fill) % 64 + 8) / 64 = if h.fill < 56 then 1 else 2 := by
    have htotal := padded_total hlt
    by_cases h56 : h.fill < 56
    · rw [if_pos h56] at htotal ⊢
      omega
    · rw [if_neg h56] at htotal ⊢
      omega
  refine ⟨_, hpath, rfl, ?_⟩
  simp only [padPath, hfirst] at hpath
  simp only [padCounting, updateCounting_of_buffered hb.beginFinalize hfirst, updateCounting_of_buffered hb₁ hpath, hfill,
    Hasher.beginFinalize_fill, pad_length hlt, lengthField_length, hcount]

/-- Settles O33: the finalizer's two appends on both paths. -/
theorem paddingCompletesOneOrTwoBlocks : Obligations.PaddingCompletesOneOrTwoBlocks := fun _ hb => padCounting_of_buffered hb

theorem commandTransforms_update {s : State} (hb : s.hasher.Buffered) (data : List Byte) :
    commandTransforms (.update data) s = .ok ((s.hasher.fill + data.length) / 64) := by
  simp only [commandTransforms, updateCounting_of_buffered hb (updatePath_eq hb data)]

theorem commandTransforms_finalize {s : State} (hb : s.hasher.Buffered) :
    commandTransforms .finalize s = .ok (if s.hasher.fill ≤ 55 then 1 else 2) := by
  obtain ⟨t, -, -, hcount⟩ := padCounting_of_buffered hb
  simp only [commandTransforms, hcount, Nat.lt_succ_iff (n := 55)]

theorem commandTransforms_hash (s : State) (data : List Byte) :
    commandTransforms (.hash data) s = .ok (data.length / 64 + if data.length % 64 ≤ 55 then 1 else 2) := by
  obtain ⟨h', he, hm⟩ := updatePath_of_holds Hasher.reset_holds_nil data
  obtain ⟨t, -, -, hcount⟩ := padCounting_of_buffered hm.buffered
  simp only [commandTransforms, updateCounting_of_buffered Hasher.reset_buffered he, hcount, hm.fill, Hasher.reset_fill,
    List.nil_append, Nat.zero_add, Nat.lt_succ_iff (n := 55)]

/-- Settles O55: the counts of the four commands, and that the counting path is the real path. -/
theorem transformCountsPerCommand : Obligations.TransformCountsPerCommand :=
  ⟨fun _ => rfl, fun _ data hb => commandTransforms_update hb data, fun _ hb => commandTransforms_finalize hb,
   commandTransforms_hash, fun _ _ _ _ he => absorbCounting_fst he⟩

end Machine

end Sys2Proof
end

section
/-! PROOFS. The statements of spec/42_transform.md about Ch and Maj, the message schedule, the compressor and the constant tables, and
that of spec/41_padding_serializer.md section 2 about the serializer as a whole. -/

namespace Sys2Proof

open Sys2Proof.Machine

namespace Machine

/-! Ch and Maj (R96, R97) -/

theorem getLsbD_ch (x y z : Word) {i : Nat} (hi : i < 32) :
    (ch x y z).getLsbD i = if x.getLsbD i then y.getLsbD i else z.getLsbD i := by
  simp only [ch, BitVec.getLsbD_xor, BitVec.getLsbD_and, BitVec.getLsbD_not, hi, decide_true, Bool.true_and]
  cases x.getLsbD i <;> simp

theorem getLsbD_maj (x y z : Word) (i : Nat) :
    (maj x y z).getLsbD i = decide (2 ≤ (x.getLsbD i).toNat + (y.getLsbD i).toNat + (z.getLsbD i).toNat) := by
  have hbits : ∀ a b c : Bool, ((a && b) ^^ (a && c) ^^ (b && c)) = decide (2 ≤ a.toNat + b.toNat + c.toNat) := by decide
  simp only [maj, BitVec.getLsbD_xor, BitVec.getLsbD_and, hbits]

theorem ch_eq_xor_and (x y z : Word) : ch x y z = z ^^^ (x &&& (y ^^^ z)) := by
  have hbits : ∀ a b c : Bool, (if a then b else c) = (c ^^ (a && (b ^^ c))) := by decide
  refine BitVec.eq_of_getLsbD_eq fun i hi => ?_
  simp only [getLsbD_ch x y z hi, BitVec.getLsbD_xor, BitVec.getLsbD_and, hbits]

theorem maj_eq_or_and (x y z : Word) : maj x y z = (x &&& y) ||| (z &&& (x ||| y)) := by
  have hbits : ∀ a b c : Bool, decide (2 ≤ a.toNat + b.toNat + c.toNat) = ((a && b) || (c && (a || b))) := by decide
  refine BitVec.eq_of_getLsbD_eq fun i _ => ?_
  simp only [getLsbD_maj, BitVec.getLsbD_or, BitVec.getLsbD_and, hbits]

/-- Settles O39: each form by the eight cases of one bit. -/
theorem choiceAndMajorityByBit : Obligations.ChoiceAndMajorityByBit := fun x y z =>
  ⟨fun _ hi => getLsbD_ch x y z hi, fun i _ => getLsbD_maj x y z i, ch_eq_xor_and x y z, maj_eq_or_and x y z⟩

/-! The message schedule (R98) -/

/-- A word once computed stays in every longer part of the schedule. -/
theorem scheduleWords_getElem_of_le (B : Block) {k n i : Nat} (hk : k ≤ n) (hi : i < 16 + k) :
    (scheduleWords B n)[i] = (scheduleWords B k)[i] := by
  obtain ⟨j, rfl⟩ := Nat.exists_eq_add_of_le hk
  exact scheduleWords_stable B k j i hi

theorem expand_getElem (B : Block) {k i : Nat} (hk : k ≤ 48) (hi : i < 16 + k) : (expand B)[i] = (scheduleWords B k)[i] :=
  scheduleWords_getElem_of_le B hk hi

theorem expand_block_word (B : Block) {t : Nat} (ht : t < 16) :
    (expand B)[t] = be32 B[4 * t] B[4 * t + 1] B[4 * t + 2] B[4 * t + 3] :=
  (expand_getElem B (Nat.zero_le 48) ht).trans (blockWords_getElem B t ht)

theorem expand_recurrence (B : Block) {k : Nat} (hk : k < 48) :
    (expand B)[16 + k] =
      (expand B)[k] + smallSigma0 (expand B)[k + 1] + (expand B)[k + 9] + smallSigma1 (expand B)[k + 14] := by
  rw [expand_getElem B hk (i := 16 + k) (by omega), scheduleWords_last, expand_getElem B hk.le (i := k) (by omega),
    expand_getElem B hk.le (i := k + 1) (by omega), expand_getElem B hk.le (i := k + 9) (by omega),
    expand_getElem B hk.le (i := k + 14) (by omega)]

/-- A word of a full buffer is the schedule's word. -/
theorem memRead_block_word {m : Memory} {B : Block} (hread : readBytes m 0 64 = .ok B) {t : Nat} (ht : t < 16) :
    memRead m (4 * t) 4 = .ok (expand B)[t] := by
  obtain ⟨-, hbytes⟩ := readBytes_eq_ok.mp hread
  rw [expand_block_word B ht]
  refine memRead_word (by omega) fun j hj => ?_
  rw [← Nat.zero_add (4 * t + j), hbytes (4 * t + j) (by omega)]
  obtain rfl | rfl | rfl | rfl : j = 0 ∨ j = 1 ∨ j = 2 ∨ j = 3 := by omega
  all_goals rfl

/-- Settles O40: the block's words, the recurrence 16 words up, and the buffer's reads. -/
theorem scheduleIsTheRecurrence : Obligations.ScheduleIsTheRecurrence := by
  refine fun B => ⟨fun t ht => expand_block_word B ht, fun t h16 h64 => ?_, fun m hread t ht => memRead_block_word hread ht⟩
  obtain ⟨k, rfl⟩ := Nat.exists_eq_add_of_le h16
  have h0 : 16 + k - 16 = k := by omega
  have h1 : 16 + k - 15 = k + 1 := by omega
  have h9 : 16 + k - 7 = k + 9 := by omega
  have h14 : 16 + k - 2 = k + 14 := by omega
  simp only [h0, h1, h9, h14]
  exact expand_recurrence B (by omega)

/-- Sliding moves every word one place down and puts the recurrence's word at the end. -/
theorem slideWindow_getElem (w : Vector Word 16) {j : Nat} (hj : j < 15) : (slideWindow w)[j] = w[j + 1] := by
  interval_cases j <;> rfl

theorem slideWindow_last (w : Vector Word 16) : (slideWindow w)[15] = w[0] + smallSigma0 w[1] + w[9] + smallSigma1 w[14] := rfl

/-- Settles O41: the window moves along the schedule, and the word it gains is the recurrence's. -/
theorem slidingWindowGivesTheSchedule : Obligations.SlidingWindowGivesTheSchedule := by
  intro B k j hk hj
  induction k generalizing j with
  | zero =>
    simp only [windowAfter, Nat.zero_add]
    exact (expand_getElem B (Nat.zero_le 48) hj).symm
  | succ k ih =>
    have hwindow := fun i (hi : i < 16) => ih i (by omega) hi
    obtain hlt | rfl : j < 15 ∨ j = 15 := by omega
    · have hpos : k + (j + 1) = k + 1 + j := by omega
      simp only [windowAfter, slideWindow_getElem _ hlt, hwindow (j + 1) (by omega), hpos]
    · have hpos : k + 1 + 15 = 16 + k := by omega
      simp only [windowAfter, slideWindow_last, hwindow 0 (by omega), hwindow 1 (by omega), hwindow 9 (by omega),
        hwindow 14 (by omega), hpos, expand_recurrence B (by omega : k < 48)]
      rfl

/-! The compressor (R99 to R101) -/

/-- The working variables before round t of a transform; beyond the last round nothing is claimed of them. -/
def workVarsBefore (H : Digest) (B : Block) (t : Nat) : WorkVars :=
  if ht : t ≤ 64 then compressionRounds (expand B) t ht (WorkVars.ofDigest H) else WorkVars.ofDigest H

theorem workVarsBefore_zero (H : Digest) (B : Block) : workVarsBefore H B 0 = WorkVars.ofDigest H := rfl

theorem workVarsBefore_succ (H : Digest) (B : Block) {t : Nat} (ht : t < 64) :
    workVarsBefore H B (t + 1) = compressionRound K[t] (expand B)[t] (workVarsBefore H B t) := by
  rw [workVarsBefore, workVarsBefore, dif_pos (show t + 1 ≤ 64 from ht), dif_pos ht.le, compressionRounds]

theorem compress_eq (H : Digest) (B : Block) : compress H B = digestAdd H (workVarsBefore H B 64) := by
  unfold compress
  rfl

/-- Settles O42: the variables before each round, the round's own equation, and the digest add. -/
theorem compressIsSixtyFourRoundsAndAnAdd : Obligations.CompressIsSixtyFourRoundsAndAnAdd := fun H B =>
  ⟨workVarsBefore H B, workVarsBefore_zero H B, fun _ ht => ⟨_, _, rfl, rfl, workVarsBefore_succ H B ht⟩, compress_eq H B⟩

/-! The constant tables (R103 to R105) -/

/-- The first 64 primes, in order. -/
def firstPrimes : List Nat := (List.range 312).filter fun n => n.Prime

/-- Every word of K is the fraction of the cube root of its prime. -/
theorem roundConstants_cubeRoots : ∀ t : Fin 64,
    (firstPrimes.getD t 0).Prime ∧ Nat.count Nat.Prime (firstPrimes.getD t 0) = t ∧
    ∃ q < 7, (q * 2 ^ 32 + K[t].toNat) ^ 3 ≤ firstPrimes.getD t 0 * 2 ^ 96 ∧
      firstPrimes.getD t 0 * 2 ^ 96 < (q * 2 ^ 32 + K[t].toNat + 1) ^ 3 := by
  decide +kernel

/-- Every word of IV is the fraction of the square root of its prime. -/
theorem initialValues_squareRoots : ∀ i : Fin 8,
    (firstPrimes.getD i 0).Prime ∧ Nat.count Nat.Prime (firstPrimes.getD i 0) = i ∧
    ∃ q < 5, (q * 2 ^ 32 + IV[i].toNat) ^ 2 ≤ firstPrimes.getD i 0 * 2 ^ 64 ∧
      firstPrimes.getD i 0 * 2 ^ 64 < (q * 2 ^ 32 + IV[i].toNat + 1) ^ 2 := by
  decide +kernel

/-- Settles O43: each word with its prime and the whole part of the root. -/
theorem constantsAreTheRootsOfThePrimes : Obligations.ConstantsAreTheRootsOfThePrimes := by
  refine ⟨fun t ht => ?_, fun i hi => ?_⟩
  · obtain ⟨hprime, hcount, q, -, hroot⟩ := roundConstants_cubeRoots ⟨t, ht⟩
    exact ⟨_, q, hprime, hcount, hroot⟩
  · obtain ⟨hprime, hcount, q, -, hroot⟩ := initialValues_squareRoots ⟨i, hi⟩
    exact ⟨_, q, hprime, hcount, hroot⟩

/-! The serializer (R86 to R88) -/

theorem hexChar_injective : ∀ v v' : BitVec 4, hexChar v = hexChar v' → v = v' := by decide

/-- The digit a code stands for. -/
def hexDigit (b : Byte) : BitVec 4 :=
  if b.toNat < 0x61 then BitVec.ofNat 4 (b.toNat - 0x30) else BitVec.ofNat 4 (b.toNat - 0x61 + 10)

theorem hexChar_hexDigit : ∀ b : Byte, isHexCode b = true → hexChar (hexDigit b) = b := by decide +kernel

/-- The word with the given digits, digit 0 the least significant. -/
def wordOfDigits (digit : Nat → BitVec 4) : Word := BitVec.ofFnLE fun k => (digit (k.val / 4)).getLsbD (k.val % 4)

theorem extractLsb'_wordOfDigits (digit : Nat → BitVec 4) {d : Nat} (hd : d < 8) :
    (wordOfDigits digit).extractLsb' (4 * d) 4 = digit d := by
  refine BitVec.eq_of_getLsbD_eq fun i hi => ?_
  have hdiv : (4 * d + i) / 4 = d := by omega
  have hmod : (4 * d + i) % 4 = i := by omega
  have hlt : 4 * d + i < 32 := by omega
  simp only [BitVec.getLsbD_extractLsb', wordOfDigits, BitVec.getLsbD_ofFnLE, hi, hlt, dif_pos, decide_true, Bool.true_and, hdiv,
    hmod]

/-- A word is its eight digits. -/
theorem word_ext_digits {w w' : Word} (h : ∀ d < 8, w.extractLsb' (4 * d) 4 = w'.extractLsb' (4 * d) 4) : w = w' := by
  refine BitVec.eq_of_getLsbD_eq fun i hi => ?_
  have hpos : 4 * (i / 4) + i % 4 = i := by omega
  have hdigit := congrArg (fun v => v.getLsbD (i % 4)) (h (i / 4) (by omega))
  simpa only [BitVec.getLsbD_extractLsb', hpos, Nat.mod_lt i (by decide : 4 > 0), decide_true, Bool.true_and] using hdigit

theorem serialize_injective {H H' : Digest} (h : serialize H = serialize H') : H = H' := by
  refine Vector.ext fun i hi => word_ext_digits fun d hd => hexChar_injective _ _ ?_
  have hdigit := serialize_getElem? H hi hd
  rw [h, serialize_getElem? H' hi hd] at hdigit
  exact (Option.some.inj hdigit).symm

/-- The digest that a response spells. -/
def digestOfHex (out : List Byte) : Digest :=
  Vector.ofFn fun i => wordOfDigits fun d => hexDigit (out.getD (8 * i.val + (7 - d)) 0)

theorem serialize_digestOfHex {out : List Byte} (hlen : out.length = 64) (hhex : ∀ b ∈ out, isHexCode b = true) :
    serialize (digestOfHex out) = out := by
  refine List.ext_getElem (by rw [serialize_length, hlen]) fun k _ hk => ?_
  have hpos : 8 * (k / 8) + (7 - (7 - k % 8)) = k := by omega
  have hdigit := serialize_getElem? (digestOfHex out) (i := k / 8) (d := 7 - k % 8) (by omega) (by omega)
  rw [digestOfHex, Vector.getElem_ofFn, extractLsb'_wordOfDigits _ (by omega), hpos, List.getD_eq_getElem _ _ hk,
    hexChar_hexDigit _ (hhex _ (List.getElem_mem hk))] at hdigit
  exact (List.getElem?_eq_some_iff.mp hdigit).2

/-- Settles O45: the digits of a digest determine it, and any 64 digits are those of a digest. -/
theorem serializerIsABijection : Obligations.SerializerIsABijection :=
  ⟨fun H => ⟨serialize_length H, serialize_hex H⟩, fun _ _ => serialize_injective,
   fun out hlen hhex => ⟨digestOfHex out, serialize_digestOfHex hlen hhex⟩⟩

end Machine

end Sys2Proof
end

section
/-! PROOFS. The statements of spec/30_encoding.md section 6 about the assembler's pseudo-commands and payload operands. -/

namespace Sys2Proof

open Sys2Proof.Machine

namespace Machine

/-! Pseudo-commands (R64) -/

/-- The pieces of a text join to it, and there is one more of them than offsets. -/
theorem pieces_eq_some {offsets : List Nat} {start : Nat} {text : List Byte} {ps : List (List Byte)}
    (h : pieces start offsets text = some ps) : ps.flatten = text ∧ ps.length = offsets.length + 1 := by
  induction offsets generalizing start text ps with
  | nil =>
    cases h
    simp
  | cons k ks ih =>
    rw [pieces] at h
    split at h
    · split at h
      · next rest hrest =>
        cases h
        obtain ⟨hjoin, hcount⟩ := ih hrest
        exact ⟨by rw [List.flatten_cons, hjoin, List.take_append_drop], by rw [List.length_cons, hcount, List.length_cons]⟩
      · cases h
    · cases h

/-- UPDATEs of one piece or more end where one UPDATE of the joined pieces ends. -/
theorem execAll_updates_eq_update (piece : List Byte) (rest : List (List Byte)) {s : State} (hb : s.hasher.Buffered) :
    execAll ((piece :: rest).map .update) s = exec (.update (piece :: rest).flatten) s := by
  induction rest generalizing piece s with
  | nil =>
    obtain ⟨t, ht, -, -⟩ := exec_of_buffered (.update piece) hb
    simp [execAll, ht]
  | cons second rest ih =>
    obtain ⟨t, ht, hbt, -⟩ := exec_of_buffered (.update piece) hb
    rw [List.map_cons, execAll, ht, List.flatten_cons, exec_update_append hb ht]
    exact ih second hbt

/-- Settles O57: the pieces that UPDATE_SPLIT cuts, and the associativity law over them. -/
theorem pseudoCommandsAreUpdates : Obligations.PseudoCommandsAreUpdates := by
  refine ⟨fun _ _ => rfl, fun text offsets is h => ?_⟩
  unfold splitCommands at h
  split at h
  · next ps hps =>
    cases h
    obtain ⟨hjoin, hcount⟩ := pieces_eq_some hps
    refine ⟨⟨ps, rfl, hjoin, hcount⟩, fun s hb => ?_⟩
    obtain ⟨piece, rest, rfl⟩ := List.exists_cons_of_length_eq_add_one hcount
    obtain ⟨t, ht, -, -⟩ := exec_of_buffered (.update text) hb
    exact ⟨t, by rw [execAll_updates_eq_update piece rest hb, hjoin, ht], ht⟩
  · cases h

/-! Payload operands (R63) -/

/-- A hexadecimal digit as a character of an assembler line. -/
def hexLetter (v : BitVec 4) : Char := Char.ofNat (hexChar v).toNat

theorem hexValue_hexLetter : ∀ v : BitVec 4, hexValue (hexLetter v) = some v.toNat := by decide

/-- A byte is sixteen times its high digit and its low digit. -/
theorem ofNat_digits (b : Byte) : BitVec.ofNat 8 (16 * (b.extractLsb' 4 4).toNat + (b.extractLsb' 0 4).toNat) = b := by
  refine BitVec.eq_of_toNat_eq ?_
  have hb := b.isLt
  simp only [BitVec.extractLsb'_toNat, BitVec.toNat_ofNat, Nat.shiftRight_eq_div_pow]
  omega

theorem hexByte_digits (b : Byte) : hexByte (hexLetter (b.extractLsb' 4 4)) (hexLetter (b.extractLsb' 0 4)) = some b := by
  simp only [hexByte, hexValue_hexLetter, ofNat_digits]

theorem hexPairs_digits (data : List Byte) :
    hexPairs (data.flatMap fun b => [hexLetter (b.extractLsb' 4 4), hexLetter (b.extractLsb' 0 4)]) = some data := by
  induction data with
  | nil => rfl
  | cons b bs ih => simp only [List.flatMap_cons, List.cons_append, List.nil_append, hexPairs, hexByte_digits, ih]

/-- Settles O58: each byte's two digits are read back as the byte, and the example line assembles. -/
theorem hexOperandsSpellAnyPayload : Obligations.HexOperandsSpellAnyPayload := by
  refine ⟨fun data => ?_, by decide⟩
  rw [payloadOperand]
  exact hexPairs_digits data

end Machine

end Sys2Proof
end
